-- ==== Sys2Proof/Word.lean ====
section
/-! DEFINITION. The word types of QXE, by width: what the spec treats as bits (00_scope.md R6, R7, R9). -/

namespace Sys2Proof

/-- A data byte, a digest byte, or one readout read (RO_DATA_W = 8, R7). -/
abbrev Byte := BitVec 8

/-- A command word (CMD_W = 32, R7). -/
abbrev Word := BitVec 32

/-- A cell register or the byte counter (REG_W = LEN_W = 64, R6). -/
abbrev Reg := BitVec 64

/-- The derived 160-bit ring view of the accumulator (WIDTH = 160, R6, R16). -/
abbrev Ring := BitVec 160

/-- A readout address (RO_ADDR_W = 6, R7): there is no address outside 0x00..0x3F (R30). -/
abbrev RoAddr := BitVec 6

end Sys2Proof
end

