-- ==== Sys2Proof/Config.lean ====
section
/-! DEFINITION. The fixed parameters of QXE v1 (00_scope.md R6, R7) and the names of the three cells.
N_ENGINES, the one OPEN parameter (R7, D17), is the argument `n` of `Machine.Platform n`. -/

namespace Sys2Proof

/-- The three cells of the accumulator, W0, W1 and W2 (R12, R15). -/
inductive Cell
  | c0 | c1 | c2
  deriving DecidableEq, Repr

namespace Config

/-- WIDTH: bits in the circular accumulator (R6). -/
@[simp] def WIDTH : Nat := 160

/-- SHIFT: rotation increment per byte, in bits (R6). -/
@[simp] def SHIFT : Nat := 11

/-- CELL_W: effective width of each cell, in bits (R6). -/
@[simp] def CELL_W : Cell → Nat
  | .c0 => 64
  | .c1 => 64
  | .c2 => 32

/-- CELL_BASE: first ring bit of each cell (R6). -/
@[simp] def CELL_BASE : Cell → Nat
  | .c0 => 0
  | .c1 => 64
  | .c2 => 128

/-- NCELLS: number of accumulator cells, the constructors of `Cell` (R6). -/
@[simp] def NCELLS : Nat := 3

/-- REG_W: storage width of each cell register, the width of `Reg` (R6). -/
@[simp] def REG_W : Nat := 64

/-- LEN_W: width of the byte counter, the width of `Reg` too (R6). -/
@[simp] def LEN_W : Nat := 64

/-- CMD_W: bits in one command word, the width of `Word` (R7). -/
@[simp] def CMD_W : Nat := 32

/-- RO_ADDR_W: bits in a readout address, the width of `RoAddr` (R7). -/
@[simp] def RO_ADDR_W : Nat := 6

/-- RO_DATA_W: bits returned by one readout read, the width of `Byte` (R7). -/
@[simp] def RO_DATA_W : Nat := 8

/-- UPD_MAX: most data bytes one UPD command carries (R7). -/
@[simp] def UPD_MAX : Nat := 3

/-- DIGEST_BYTES: digest length in bytes (R6). -/
@[simp] def DIGEST_BYTES : Nat := 20

/-- LEN_XOR_LO: first digest byte that the length XOR touches (R6). -/
@[simp] def LEN_XOR_LO : Nat := 12

end Config
end Sys2Proof
end

