-- ==== Sys2Proof/Syntax.lean ====
section
/-! DEFINITION. The commands of QXE: one constructor per row of spec/opcode_table.json (30_encoding.md R47). -/

namespace Sys2Proof

/-- A command. The row `upd` stands four times in the opcode table, once for each count of data bytes
(formats U0..U3, R45, R47); the data bytes are listed in the order they are folded. -/
inductive Instr
  | nop
  | reset
  | upd0
  | upd1 (dat0 : Byte)
  | upd2 (dat0 dat1 : Byte)
  | upd3 (dat0 dat1 dat2 : Byte)
  deriving DecidableEq, Repr

end Sys2Proof
end

