-- ==== Sys2Proof/WellFormed.lean ====
section
/-! DEFINITION. Which raw operands make a command, and the well-formedness of commands.
The operands of `Instr` are typed by their width, so every term of `Instr` is well formed; what can be
ill formed is an operand list as written in the assembler's notation (30_encoding.md R50). -/

namespace Sys2Proof

/-- One operand is a byte: "A byte operand is an integer 0..255" (R50). -/
def byteOperandOk (v : Nat) : Bool := decide (v < 256)

/-- An `upd` line's operands: at most three (R50), each a byte. -/
def updOperandsOk (ops : List Nat) : Bool :=
  decide (ops.length ≤ Config.UPD_MAX) && ops.all byteOperandOk

/-- A `.cmd` operand is a raw 32-bit word (R50). -/
def rawWordOk (v : Nat) : Bool := decide (v < 2 ^ 32)

/-- No check is left on a typed command: CNT is the constructor and each data byte has its 8 bits (R46). -/
def Instr.wellFormed : Instr → Bool
  | .nop => true
  | .reset => true
  | .upd0 => true
  | .upd1 _ => true
  | .upd2 _ _ => true
  | .upd3 _ _ _ => true

end Sys2Proof
end

