-- ==== Sys2Proof/Decode.lean ====
section
/-! DEFINITION. The command decoder, total over all 2^32 words (30_encoding.md R48), the encoder written from the
same formats (R44, R45), and the opcode map as mask and match rows (R47). -/

namespace Sys2Proof

/-- Why a word is no command: the reserved and illegal encodings of R49, by name. The name is the decoder's
own; the machine records one cause only (R74). -/
inductive Illegal
  /-- OP in 0x3..0xF. -/
  | reservedOp
  /-- OP = 0x0 with a bit of cmd[27:0] set. -/
  | nopReservedBits
  /-- OP = 0x1 with a bit of cmd[27:0] set. -/
  | resetReservedBits
  /-- OP = 0x2 with RSV ≠ 0. -/
  | updReservedField
  /-- OP = 0x2 with a nonzero data byte at an index ≥ CNT. -/
  | updUnusedData
  deriving DecidableEq, Repr

/-! ### Fields of the command word (R43) -/

/-- OP, bits 31:28. -/
def opField (cmd : Word) : BitVec 4 := cmd.extractLsb' 28 4

/-- Bits 27:0, the one reserved field of format N. -/
def lowField (cmd : Word) : BitVec 28 := cmd.extractLsb' 0 28

/-- RSV, bits 27:26. -/
def rsvField (cmd : Word) : BitVec 2 := cmd.extractLsb' 26 2

/-- CNT, bits 25:24. -/
def cntField (cmd : Word) : BitVec 2 := cmd.extractLsb' 24 2

/-- DAT0, bits 7:0. -/
def dat0Field (cmd : Word) : Byte := cmd.extractLsb' 0 8

/-- DAT1, bits 15:8. -/
def dat1Field (cmd : Word) : Byte := cmd.extractLsb' 8 8

/-- DAT2, bits 23:16. -/
def dat2Field (cmd : Word) : Byte := cmd.extractLsb' 16 8

/-! ### Decoder (R48) -/

/-- Format U with RSV = 0: the data bytes at an index ≥ CNT must be 0 (R47, R48). -/
def decodeUpd (cmd : Word) : Except Illegal Instr :=
  match (cntField cmd).toNat with
  | 0 =>
    if dat0Field cmd = 0 ∧ dat1Field cmd = 0 ∧ dat2Field cmd = 0 then .ok .upd0 else .error .updUnusedData
  | 1 =>
    if dat1Field cmd = 0 ∧ dat2Field cmd = 0 then .ok (.upd1 (dat0Field cmd)) else .error .updUnusedData
  | 2 =>
    if dat2Field cmd = 0 then .ok (.upd2 (dat0Field cmd) (dat1Field cmd)) else .error .updUnusedData
  | _ => .ok (.upd3 (dat0Field cmd) (dat1Field cmd) (dat2Field cmd))

/-- `Decode(cmd)` of R48. -/
def decode (cmd : Word) : Except Illegal Instr :=
  if opField cmd = 0 then
    if lowField cmd = 0 then .ok .nop else .error .nopReservedBits
  else if opField cmd = 1 then
    if lowField cmd = 0 then .ok .reset else .error .resetReservedBits
  else if opField cmd = 2 then
    if rsvField cmd = 0 then decodeUpd cmd else .error .updReservedField
  else .error .reservedOp

/-- `Legal(cmd)` of R48. -/
def legal (cmd : Word) : Bool :=
  match decode cmd with
  | .ok _ => true
  | .error _ => false

/-! ### Encoder (R44, R45) -/

/-- Format N (R44). -/
def packN (op : BitVec 4) : Word := op ++ (0 : BitVec 28)

/-- Format U (R45): OP = 0x2, RSV = 0, CNT, DAT2, DAT1, DAT0 from the top bit down. -/
def packU (cnt : BitVec 2) (dat2 dat1 dat0 : Byte) : Word :=
  (2 : BitVec 4) ++ (0 : BitVec 2) ++ cnt ++ dat2 ++ dat1 ++ dat0

/-- The one word of a command (R47: unused data bytes are 0). -/
def encode : Instr → Word
  | .nop => packN 0
  | .reset => packN 1
  | .upd0 => packU 0 0 0 0
  | .upd1 b0 => packU 1 0 0 b0
  | .upd2 b0 b1 => packU 2 0 b1 b0
  | .upd3 b0 b1 b2 => packU 3 b2 b1 b0

/-! ### The opcode map as rows (R47, opcode_table.json) -/

/-- One row of the opcode table: a word is of this row when its bits under `mask` are `pattern`. -/
structure Row where
  mnemonic : String
  format : String
  pattern : Word
  mask : Word
  deriving DecidableEq, Repr

/-- The row that a word matches. -/
def Row.matches (r : Row) (cmd : Word) : Bool := decide (cmd &&& r.mask = r.pattern)

/-- The six rows of spec/opcode_table.json, in its order. -/
def opcodeRows : List Row :=
  [ ⟨"nop", "N", 0x00000000, 0xFFFFFFFF⟩,
    ⟨"reset", "N", 0x10000000, 0xFFFFFFFF⟩,
    ⟨"upd", "U0", 0x20000000, 0xFFFFFFFF⟩,
    ⟨"upd", "U1", 0x21000000, 0xFFFFFF00⟩,
    ⟨"upd", "U2", 0x22000000, 0xFFFF0000⟩,
    ⟨"upd", "U3", 0x23000000, 0xFF000000⟩ ]

/-- The place of a command's row in `opcodeRows`. -/
def Instr.rowIndex : Instr → Nat
  | .nop => 0
  | .reset => 1
  | .upd0 => 2
  | .upd1 _ => 3
  | .upd2 _ _ => 4
  | .upd3 _ _ _ => 5

/-- The host's view of the decoder: the command whose bits are `w`, numbered as spec/opcode_table.json numbers
them. A command is one whole word on the port, so no byte layout comes in (R35, R42). -/
def decodeTableWord (nbits w : Nat) : Option Instr :=
  if nbits ≤ 32 then
    match decode (BitVec.ofNat 32 (w % 2 ^ nbits)) with
    | .ok i => some i
    | .error _ => none
  else none

end Sys2Proof
end

