-- ==== Sys2Proof/Machine/State.lean ====
section
/-! DEFINITION. The machine's state: every register of 10_state.md R14, and the host's side of the two ports (the events
not yet accepted and the bytes read so far, 70_reset_and_hazards.md R94). -/

namespace Sys2Proof.Machine

/-- What the host can do at one engine (R27, R84): the constituents of the one total order of events (R38). -/
inductive HostEvent
  /-- The host issues a command word on the command port (R28). Any 32-bit word. -/
  | command (w : Word)
  /-- The host reads one readout byte (R33). -/
  | read (a : RoAddr)
  /-- The reset input is asserted (R84); a command arriving at the same time is carried along and discarded (R85). -/
  | resetInput (arriving : Option Word)
  deriving DecidableEq, Repr

/-- The state of one engine with its ports. -/
structure State where
  /-- W0: accumulator cell 0, ring bits 0..63. -/
  w0 : Reg
  /-- W1: accumulator cell 1, ring bits 64..127. -/
  w1 : Reg
  /-- W2: accumulator cell 2, ring bits 128..159 in bits 31:0; bits 63:32 are hardwired 0, in `readCell` and
  `writeCell` (R15). -/
  w2 : Reg
  /-- LEN: bytes folded since the last reset, modulo 2^64 (R17). -/
  len : Reg
  /-- ROT: ring bit position where the next byte begins folding, in [0,160) (R18). -/
  rot : BitVec 8
  /-- ERR: the sticky illegal-command flag (R21). -/
  err : Bool
  /-- ECMD: the first illegal command word since the reset input (R22). -/
  ecmd : Word
  /-- DESIGN CHOICE (log entry 1): the host's events not yet accepted, oldest first (R38). -/
  pending : List HostEvent
  /-- DESIGN CHOICE (log entry 2): the bytes the readout reads returned, oldest first (R94). -/
  observed : List Byte
  deriving DecidableEq, Repr

/-- QXE never stops: "Every word leads to exactly one next state, and no word stops the engine" (R53), and an illegal
command "is not a trap" (60_exceptions.md). So no fault exists and nobody raises one (log entry 6). Safe: nothing that
runs is stopped. -/
inductive Fault
  deriving DecidableEq, Repr

/-- Why the model gives an instruction no meaning. -/
inductive Refusal
  /-- Raised by an arm of `exec` whose instruction has no meaning yet: no arm of this model raises it. Safe. -/
  | notModelled (mnemonic : String)
  deriving DecidableEq, Repr

/-- The state after the reset input: every register 0 (R25, R84). No event is pending and nothing has been observed
(DESIGN CHOICE, log entries 1 and 2: the two lists are the host's). -/
def State.reset : State where
  w0 := 0
  w1 := 0
  w2 := 0
  len := 0
  rot := 0
  err := false
  ecmd := 0
  pending := []
  observed := []

end Sys2Proof.Machine
end

