-- ==== Sys2Proof/Machine/Operands.lean ====
section
/-! DEFINITION. Operand forms and bit-field helpers: a command's data bytes (30_encoding.md R45, R46), masks (00_scope.md
R9), and the little-endian bytes of a value (R10, R32). -/

namespace Sys2Proof

/-- The data bytes of a command in the order they are folded: "DAT0, DAT1, DAT2, truncated to the first CNT of them"
(R45). NOP and RESET carry none. -/
def Instr.dataBytes : Instr → List Byte
  | .nop => []
  | .reset => []
  | .upd0 => []
  | .upd1 b0 => [b0]
  | .upd2 b0 b1 => [b0, b1]
  | .upd3 b0 b1 b2 => [b0, b1, b2]

namespace Machine

/-- `zext_64(MASK_w)` (R9). -/
def maskReg (w : Nat) : Reg := BitVec.ofNat 64 (2 ^ w - 1)

/-- `zext_64(b)` of a byte (R9). -/
def zextByte (b : Byte) : Reg := b.setWidth 64

/-- Byte k of a value, `v[8k+7:8k]` (R10). -/
def regByte (v : Reg) (k : Nat) : Byte := v.extractLsb' (8 * k) 8

/-- Byte k of the captured command word, `ECMD[8k+7:8k]` (R33). -/
def wordByte (v : Word) (k : Nat) : Byte := v.extractLsb' (8 * k) 8

/-- `LE8(v)`: the 8-byte little-endian encoding (R10). -/
def le8 (v : Reg) : List Byte := (List.range 8).map (regByte v)

end Machine
end Sys2Proof
end

