-- ==== Sys2Proof/Machine/Flags.lean ====
section
/-! DEFINITION. The only flag, ERR, its capture register ECMD, and STATUS (10_state.md R21, R22; 20_memory.md R31). No
command computes a condition code (R20, R54, R55, R60: "Flags written: none"). -/

namespace Sys2Proof.Machine

/-- Record an illegal word: ECMD takes it only if ERR was 0, then ERR is 1 (R73). -/
def State.latchError (cmd : Word) (s : State) : State :=
  { s with ecmd := if s.err then s.ecmd else cmd, err := true }

/-- Clear the error state: only the reset input does this (R21, R84). -/
def State.clearError (s : State) : State := { s with err := false, ecmd := 0 }

/-- `STATUS = zext_8(ERR)` (R31). -/
def statusByte (s : State) : Byte := if s.err then 1 else 0

end Sys2Proof.Machine
end

