-- ==== Sys2Proof/Machine/Ops.lean ====
section
/-! DEFINITION. The shared operations over the registers: reading and writing a cell (10_state.md R15), the byte fold
(41_update.md R57..R60), what an illegal command does (60_exceptions.md R73), the two resets (R55, R84), and the
host's side of the ports. QXE has no return from an error: only the reset input clears it (R78). -/

namespace Sys2Proof.Machine

/-! ### Cells (R15) -/

/-- Read a cell register. W2[63:32] reads 0 (R15). -/
def State.readCell (s : State) : Cell → Reg
  | .c0 => s.w0
  | .c1 => s.w1
  | .c2 => s.w2 &&& maskReg 32

/-- Write a cell register. A write to W2 stores `v & zext_64(MASK_32)` (R15). -/
def State.writeCell (s : State) (c : Cell) (v : Reg) : State :=
  match c with
  | .c0 => { s with w0 := v }
  | .c1 => { s with w1 := v }
  | .c2 => { s with w2 := v &&& maskReg 32 }

/-- `W[c] <- W[c] ^ v` (R58). -/
def State.xorCell (s : State) (c : Cell) (v : Reg) : State := s.writeCell c (s.readCell c ^^^ v)

/-- Write LEN. -/
def State.setLen (s : State) (v : Reg) : State := { s with len := v }

/-- Write ROT. -/
def State.setRot (s : State) (v : BitVec 8) : State := { s with rot := v }

/-! ### The byte fold (R57..R60) -/

/-- The cell after a cell, circularly: `(c + 1) mod 3` (R58). -/
def nextCell : Cell → Cell
  | .c0 => .c1
  | .c1 => .c2
  | .c2 => .c0

/-- `Cell(q)`: the cell and the offset inside it (R57). -/
def cellOf (q : Nat) : Cell × Nat :=
  if q < 64 then (.c0, q)
  else if q < 128 then (.c1, q - 64)
  else (.c2, q - 128)

/-- Bits remaining in the cell from ring bit q (R57, R58). -/
def remOf (q : Nat) : Nat := Config.CELL_W (cellOf q).1 - (cellOf q).2

/-- `FoldByte(q, b)` (R58): the byte goes into its cell, masked to the cell's width, and where fewer than 8 bits remain
its high part goes into the next cell. -/
def foldByte (q : Nat) (b : Byte) (s : State) : State :=
  let c := (cellOf q).1
  let s1 := s.xorCell c ((zextByte b <<< (cellOf q).2) &&& maskReg (Config.CELL_W c))
  if 8 ≤ remOf q then s1
  else s1.xorCell (nextCell c) (zextByte b >>> remOf q)

/-- The loop of `Advance` (R59), with as many turns as `fuel` allows. -/
def wrapOffset : Nat → Cell × Nat → Cell × Nat
  | 0, p => p
  | fuel + 1, (c, off) =>
    if Config.CELL_W c ≤ off then wrapOffset fuel (nextCell c, off - Config.CELL_W c) else (c, off)

/-- `Advance(c, off)` (R59). Each turn of its loop takes at least 32 off the offset, so `off + 11` turns are enough. -/
def advance (p : Cell × Nat) : Cell × Nat :=
  wrapOffset (p.2 + Config.SHIFT) (p.1, p.2 + Config.SHIFT)

/-- `q <- (q + 11) mod 160` (R59, R60). -/
def nextOffset (q : Nat) : Nat := (q + Config.SHIFT) % Config.WIDTH

/-- The loop of `ExecUPD` (R60): fold each byte at the running offset q, which advances after it. -/
def foldBytes (q : Nat) : List Byte → State → State
  | [], s => s
  | b :: bs, s => foldBytes (nextOffset q) bs (foldByte q b s)

/-- The running offset after n bytes. -/
def runningOffset (q : Nat) : Nat → Nat
  | 0 => q
  | n + 1 => runningOffset (nextOffset q) n

/-- The document's Update of a chunk of any length, the reference semantics of R60: the fold from ROT, then
`ROT <- (ROT + 11 * (n mod 160)) mod 160` and `LEN <- (LEN + n) mod 2^64`. -/
def update (bs : List Byte) (s : State) : State :=
  ((foldBytes s.rot.toNat bs s).setRot
      (BitVec.ofNat 8 ((s.rot.toNat + Config.SHIFT * (bs.length % Config.WIDTH)) % Config.WIDTH))).setLen
    (s.len + BitVec.ofNat 64 bs.length)

/-! ### Errors and resets -/

/-- `raise IllegalCommand(cmd)` (R73), the one exception: W0, W1, W2, LEN and ROT are not written, ECMD takes the first
illegal word, ERR becomes 1, and the engine goes on. -/
def illegalCommand (cmd : Word) (s : State) : State := s.latchError cmd

/-- Zero W0, W1, W2, LEN and ROT (R55; ERR and ECMD are not written). -/
def State.clearHash (s : State) : State :=
  (((((s.writeCell .c0 0).writeCell .c1 0).writeCell .c2 0).setLen 0).setRot 0)

/-- The reset input (R84): all seven registers become 0. The host's two lists are no registers and stay. -/
def State.assertReset (s : State) : State := s.clearHash.clearError

/-! ### The host's side -/

/-- Take the accepted event off the pending list. -/
def State.withPending (s : State) (es : List HostEvent) : State := { s with pending := es }

/-- A readout read returned this byte (R94). -/
def State.observe (s : State) (b : Byte) : State := { s with observed := s.observed ++ [b] }

/-- A command word in front of all pending events: the next one the engine accepts. -/
def State.pushCommand (s : State) (w : Word) : State := s.withPending (.command w :: s.pending)

end Sys2Proof.Machine
end

