-- ==== Sys2Proof/Machine/ResetNop.lean ====
section
/-! DEFINITION. The meanings of NOP and RESET (40_reset_nop.md). -/

namespace Sys2Proof.Machine

/-- `ExecNOP()` (R54): no register is written. -/
def execNop (s : State) : Host.Outcome State Fault Refusal := .next s

/-- `ExecRESET()` (R55): W0, W1, W2, LEN and ROT become 0; ERR and ECMD are not written. -/
def execReset (s : State) : Host.Outcome State Fault Refusal := .next s.clearHash

end Sys2Proof.Machine
end

