-- ==== Sys2Proof/Machine/Update.lean ====
section
/-! DEFINITION. The meanings of the four UPD forms (41_update.md R60), one per row of the opcode table, each the chunk
update on the form's data bytes. -/

namespace Sys2Proof.Machine

/-- UPD with CNT = 0: the zero-length update. -/
def execUpd0 (s : State) : Host.Outcome State Fault Refusal := .next (update [] s)

/-- UPD with CNT = 1. -/
def execUpd1 (b0 : Byte) (s : State) : Host.Outcome State Fault Refusal := .next (update [b0] s)

/-- UPD with CNT = 2. -/
def execUpd2 (b0 b1 : Byte) (s : State) : Host.Outcome State Fault Refusal := .next (update [b0, b1] s)

/-- UPD with CNT = 3. -/
def execUpd3 (b0 b1 b2 : Byte) (s : State) : Host.Outcome State Fault Refusal := .next (update [b0, b1, b2] s)

end Sys2Proof.Machine
end

