-- ==== Sys2Proof/Machine/Dispatch.lean ====
section
/-! DEFINITION. The step's dispatch on a decoded command (40_reset_nop.md R53), one arm per row of the opcode table. -/

namespace Sys2Proof.Machine

def exec (i : Instr) (s : State) : Host.Outcome State Fault Refusal :=
  match i with
  | .nop => Sys2Proof.Machine.execNop s
  | .reset => Sys2Proof.Machine.execReset s
  | .upd0 => Sys2Proof.Machine.execUpd0 s
  | .upd1 b0 => Sys2Proof.Machine.execUpd1 b0 s
  | .upd2 b0 b1 => Sys2Proof.Machine.execUpd2 b0 b1 s
  | .upd3 b0 b1 b2 => Sys2Proof.Machine.execUpd3 b0 b1 b2 s

end Sys2Proof.Machine
end

