-- ==== Sys2Proof/Machine/Readout.lean ====
section
/-! DEFINITION. The finalization serializer (42_finalize.md R67) and the readout space (20_memory.md R29..R33). Both are
functions of the state: no read writes a register (R34, R70). -/

namespace Sys2Proof.Machine

/-- Steps 1 and 2 of `Digest()` (R67): W0 and W1 as 8 little-endian bytes each, then the low 4 bytes of W2. -/
def serializeCells (s : State) : List Byte :=
  le8 (s.readCell .c0) ++ le8 (s.readCell .c1) ++ (le8 (s.readCell .c2)).take 4

/-- Step 3 of `Digest()` (R67): XOR the length's 8 bytes on top of bytes 12..19. -/
def xorLength (d : List Byte) (len : Reg) : List Byte :=
  d.take Config.LEN_XOR_LO ++ List.zipWith (· ^^^ ·) (d.drop Config.LEN_XOR_LO) (le8 len)

/-- `Digest()` (R67), the bytes D[0..19] in output order. -/
def digest (s : State) : List Byte := xorLength (serializeCells s) s.len

/-- `ReadOut(a)` (R33). Reserved bytes read 0 (R30). -/
def readOut (s : State) (a : RoAddr) : Byte :=
  let n := a.toNat
  if n ≤ 0x13 then (digest s).getD n 0
  else if n = 0x14 then statusByte s
  else if n ≤ 0x17 then 0
  else if n ≤ 0x1F then regByte s.len (n - 0x18)
  else if n ≤ 0x27 then regByte (s.readCell .c0) (n - 0x20)
  else if n ≤ 0x2F then regByte (s.readCell .c1) (n - 0x28)
  else if n ≤ 0x37 then regByte (s.readCell .c2) (n - 0x30)
  else if n = 0x38 then s.rot
  else if n ≤ 0x3B then 0
  else wordByte s.ecmd (n - 0x3C)

end Sys2Proof.Machine
end

