-- ==== Sys2Proof/Machine/Port.lean ====
section
/-! DEFINITION. What one host event does at the engine: a command word (40_reset_nop.md R53), a readout read (20_memory.md
R33), the reset input (70_reset_and_hazards.md R84, R85). -/

namespace Sys2Proof.Machine

/-- `Step(cmd)` (R53): a legal word runs its command, any other word raises IllegalCommand (R73). -/
def acceptCommand (w : Word) (s : State) : Host.Outcome State Fault Refusal :=
  match decode w with
  | .ok i => exec i s
  | .error _ => .next (illegalCommand w s)

/-- A readout read returns its byte to the host and changes no register (R33, R34). -/
def hostRead (a : RoAddr) (s : State) : Host.Outcome State Fault Refusal := .next (s.observe (readOut s a))

/-- The reset input; a command arriving with it is discarded (R84, R85). -/
def acceptReset (_discarded : Option Word) (s : State) : Host.Outcome State Fault Refusal := .next s.assertReset

/-- One event at the engine. -/
def acceptEvent (e : HostEvent) (s : State) : Host.Outcome State Fault Refusal :=
  match e with
  | .command w => acceptCommand w s
  | .read a => hostRead a s
  | .resetInput d => acceptReset d s

/-- DESIGN CHOICE (log entry 3): with no event pending the engine keeps its state; the run is over (R94) and nothing
changes state but commands and the reset input (R24). -/
def idle (s : State) : Host.Outcome State Fault Refusal := .next s

/-- Accept the events of a list in order, atomically one by one (R28, R36, R38). -/
def runEvents : List HostEvent → State → Host.Outcome State Fault Refusal
  | [], s => .next s
  | e :: es, s =>
    match acceptEvent e s with
    | .next t => runEvents es t
    | .fault r => .fault r
    | .refused r => .refused r

end Sys2Proof.Machine
end

