-- ==== Sys2Proof/Machine/Step.lean ====
section
/-! DEFINITION. One step of the machine: accept the oldest pending event (20_memory.md R28, R38; 70_reset_and_hazards.md
R93), and the host's way to place a command word where the next step accepts it. -/

namespace Sys2Proof.Machine

/-- One step. -/
def step (s : State) : Host.Outcome State Fault Refusal :=
  match s.pending with
  | [] => idle s
  | e :: rest => acceptEvent e (s.withPending rest)

/-- QXE fetches nothing (R40): its next command is the oldest pending event. The word w (of nbits bits) goes in front
of the pending events (log entry 1). -/
def State.withFetchWord (s : State) (nbits w : Nat) : State :=
  s.pushCommand (BitVec.ofNat 32 (w % 2 ^ nbits))

end Sys2Proof.Machine
end

