-- ==== Sys2Proof/Machine/Assembler.lean ====
section
/-! DEFINITION. The assembler's notation (30_encoding.md R50) and the pseudo-instruction `upds` (R51), from a line's
characters to command words. Lexical points that R50 leaves open are DESIGN CHOICE, log entries 11, 15 and 16. -/

namespace Sys2Proof.Machine

/-! ### Abstract lines -/

/-- One line of assembly (R50, R51). -/
inductive AsmLine
  | nop
  | reset
  | upd (ops : List Nat)
  | cmd (w : Nat)
  | upds (ops : List Nat)
  deriving DecidableEq, Repr

/-- `upds` as UPD commands (R51): three bytes each, and the one or two left over at the end. -/
def expandUpds : List Byte → List Instr
  | b0 :: b1 :: b2 :: rest => .upd3 b0 b1 b2 :: expandUpds rest
  | [b0, b1] => [.upd2 b0 b1]
  | [b0] => [.upd1 b0]
  | [] => []

/-- The UPD command with these operands, if there are at most three and each is a byte (R50). -/
def updOf (ops : List Nat) : Option Instr :=
  if updOperandsOk ops then
    match ops.map (BitVec.ofNat 8) with
    | [] => some .upd0
    | [b0] => some (.upd1 b0)
    | [b0, b1] => some (.upd2 b0 b1)
    | [b0, b1, b2] => some (.upd3 b0 b1 b2)
    | _ => none
  else none

/-- The words of a line, or none where the line "is an assembly error and produces no word" (R50). -/
def AsmLine.words : AsmLine → Option (List Word)
  | .nop => some [encode .nop]
  | .reset => some [encode .reset]
  | .upd ops => (updOf ops).map fun i => [encode i]
  | .cmd w => if rawWordOk w then some [BitVec.ofNat 32 w] else none
  | .upds ops =>
    if ops.all byteOperandOk then some ((expandUpds (ops.map (BitVec.ofNat 8))).map encode) else none

/-! ### Characters to tokens -/

/-- A token of a line. -/
inductive Token
  | word (cs : List Char)
  | num (n : Nat)
  | str (bytes : List Nat)
  | comma
  deriving DecidableEq, Repr

def quoteChar : Char := Char.ofNat 0x22
def tickChar : Char := Char.ofNat 0x27
def backslashChar : Char := Char.ofNat 0x5C

/-- "Only printable ASCII is allowed in a string" (R51). -/
def printable (c : Char) : Bool := decide (0x20 ≤ c.toNat ∧ c.toNat ≤ 0x7E)

def isDigit (c : Char) : Bool := decide (0x30 ≤ c.toNat ∧ c.toNat ≤ 0x39)

def isLetter (c : Char) : Bool :=
  decide (0x61 ≤ c.toNat ∧ c.toNat ≤ 0x7A) || decide (0x41 ≤ c.toNat ∧ c.toNat ≤ 0x5A)

/-- The value of a digit, up to hexadecimal. -/
def digitValue (c : Char) : Option Nat :=
  let n := c.toNat
  if 0x30 ≤ n ∧ n ≤ 0x39 then some (n - 0x30)
  else if 0x61 ≤ n ∧ n ≤ 0x66 then some (n - 0x57)
  else if 0x41 ≤ n ∧ n ≤ 0x46 then some (n - 0x37)
  else none

/-- Digits in a base, most significant first. -/
def digitsValue (base : Nat) : Nat → List Char → Option Nat
  | acc, [] => some acc
  | acc, c :: cs =>
    match digitValue c with
    | some d => if d < base then digitsValue base (acc * base + d) cs else none
    | none => none

/-- A number: decimal, or hexadecimal with the prefix `0x` (R50). -/
def numberValue : List Char → Option Nat
  | ['0', 'x'] => none
  | '0' :: 'x' :: cs => digitsValue 16 0 cs
  | [] => none
  | cs => digitsValue 10 0 cs

/-- The rest of a string after its opening quote: its character codes and what follows the closing quote. The escapes
are those of R51. -/
def lexString : List Char → Option (List Nat × List Char)
  | [] => none
  | c :: cs =>
    if c = quoteChar then some ([], cs)
    else if c = backslashChar then
      match cs with
      | [] => none
      | e :: cs' =>
        if e = backslashChar ∨ e = quoteChar then (lexString cs').map fun r => (e.toNat :: r.1, r.2)
        else if e = 'n' then (lexString cs').map fun r => (0x0A :: r.1, r.2)
        else none
    else if printable c then (lexString cs).map fun r => (c.toNat :: r.1, r.2)
    else none

/-- The leading letters, digits and dots, and the rest. -/
def splitName : List Char → List Char × List Char
  | [] => ([], [])
  | c :: cs =>
    if isLetter c || isDigit c || c == '.' then ((c :: (splitName cs).1), (splitName cs).2) else ([], c :: cs)

/-- The tokens of a line; `fuel` bounds their number and the line's length is enough. DESIGN CHOICE (log entries 11 and
16): no blank is needed where the next character cannot belong to the token before it, as between a mnemonic and a
quoted operand or around a comma, and a `;` between quotes or ticks begins no comment. -/
def lexLine : Nat → List Char → Option (List Token)
  | _, [] => some []
  | 0, _ :: _ => none
  | fuel + 1, c :: cs =>
    if c = ' ' ∨ c = '\t' then lexLine fuel cs
    else if c = ';' then some []
    else if c = ',' then (lexLine fuel cs).map (Token.comma :: ·)
    else if c = quoteChar then
      match lexString cs with
      | some (bs, rest) => (lexLine fuel rest).map (Token.str bs :: ·)
      | none => none
    else if c = tickChar then
      match cs with
      | x :: t :: rest =>
        if t = tickChar ∧ printable x then (lexLine fuel rest).map (Token.num x.toNat :: ·) else none
      | _ => none
    else if isDigit c then
      match numberValue (splitName (c :: cs)).1 with
      | some n => (lexLine fuel (splitName (c :: cs)).2).map (Token.num n :: ·)
      | none => none
    else if isLetter c || c == '.' then
      (lexLine fuel (splitName (c :: cs)).2).map (Token.word (splitName (c :: cs)).1 :: ·)
    else none

/-! ### Tokens to lines -/

/-- One operand or more, separated by commas. -/
def parseMore : List Token → Option (List Nat)
  | [.num n] => some [n]
  | .num n :: .comma :: rest => (parseMore rest).map (n :: ·)
  | _ => none

/-- Operands separated by commas, or none at all. -/
def parseOperands (ts : List Token) : Option (List Nat) := if ts = [] then some [] else parseMore ts

/-- A line's tokens: no command, or one command. Mnemonics are lower case (R50). DESIGN CHOICE (log entry 16): a line of
none of the forms of R50 and R51 is an assembly error. -/
def parseLine : List Token → Option (Option AsmLine)
  | [] => some none
  | .word ['n', 'o', 'p'] :: rest => if rest = [] then some (some .nop) else none
  | .word ['r', 'e', 's', 'e', 't'] :: rest => if rest = [] then some (some .reset) else none
  | .word ['u', 'p', 'd'] :: rest => (parseOperands rest).map fun ops => some (.upd ops)
  | [.word ['.', 'c', 'm', 'd'], .num w] => some (some (.cmd w))
  | [.word ['u', 'p', 'd', 's'], .str bs] => some (some (.upds bs))
  | .word ['u', 'p', 'd', 's'] :: rest => (parseOperands rest).map fun ops => some (.upds ops)
  | _ => none

/-- Assemble one line of text; none is an assembly error. -/
def assembleLine (cs : List Char) : Option (List Word) :=
  match lexLine cs.length cs with
  | none => none
  | some ts =>
    match parseLine ts with
    | none => none
    | some none => some []
    | some (some l) => l.words

/-- Assemble a program, one command per line (R50). DESIGN CHOICE (log entry 15): a line in error makes the whole
program none; R50 says only that the line itself produces no word. -/
def assemble : List (List Char) → Option (List Word)
  | [] => some []
  | l :: ls =>
    match assembleLine l, assemble ls with
    | some ws, some rest => some (ws ++ rest)
    | _, _ => none

end Sys2Proof.Machine
end

