-- ==== Sys2Proof/Machine/Message.lean ====
section
/-! DEFINITION. What a stream of host events means as a message (70_reset_and_hazards.md R87), and the events of several
hosts on one port (60_exceptions.md R80). -/

namespace Sys2Proof.Machine

/-- One event's effect on the message so far (R87): a UPD appends its data bytes, RESET and the reset input begin a new
message, every other event leaves it (NOP, illegal words R73, reads R34). -/
def extendMessage (m : List Byte) : HostEvent → List Byte
  | .command w =>
    match decode w with
    | .ok .reset => []
    | .ok i => m ++ i.dataBytes
    | .error _ => m
  | .read _ => m
  | .resetInput _ => []

/-- The message after a list of events that begins at a reset: the data bytes of the UPD commands issued since the last
reset, in command order (R87). -/
def messageOf (es : List HostEvent) : List Byte := es.foldl extendMessage []

/-- The first illegal word since the last reset input, if there is one (R22, R74). -/
def extendFirstIllegal (f : Option Word) : HostEvent → Option Word
  | .command w => if legal w then f else f.or (some w)
  | .read _ => f
  | .resetInput _ => none

/-- The first illegal word of a list of events that begins at the reset input (R22). -/
def firstIllegal (es : List HostEvent) : Option Word := es.foldl extendFirstIllegal none

/-- The command word is one of a message's own: UPD or NOP (R88). -/
def messageWord (w : Word) : Bool :=
  match decode w with
  | .ok .reset => false
  | .ok _ => true
  | .error _ => false

/-- The data bytes of a list of command words, concatenated in command order (R62). -/
def dataOf (ws : List Word) : List Byte :=
  ws.flatMap fun w =>
    match decode w with
    | .ok i => i.dataBytes
    | .error _ => []

/-- The events of several hosts, merged at the granularity of one event: "A model of several hosts on one port must
admit every interleaving" (R80). `Interleaving hosts es` says that es is one of them. -/
inductive Interleaving : List (List HostEvent) → List HostEvent → Prop
  | done {hosts : List (List HostEvent)} (h : ∀ q ∈ hosts, q = []) : Interleaving hosts []
  | pick {hosts : List (List HostEvent)} {k : Nat} {e : HostEvent} {q es : List HostEvent}
      (h : hosts[k]? = some (e :: q)) (rest : Interleaving (hosts.set k q) es) : Interleaving hosts (e :: es)

end Sys2Proof.Machine
end

