-- ==== Sys2Proof/Machine/Platform.lean ====
section
/-! DEFINITION. A platform of N_ENGINES independent engines (60_exceptions.md R79), with the placement of their ports in
the platform's address map as an argument (20_memory.md R37; 92 D17). -/

namespace Sys2Proof.Machine

/-- n engines: each has its own registers, command port and readout space, and nothing is shared (R79). -/
structure Platform (n : Nat) where
  engines : Vector State n
  deriving DecidableEq, Repr

/-- Every engine after its reset input. -/
def Platform.reset (n : Nat) : Platform n := ⟨Vector.replicate n State.reset⟩

/-- The engine with a number. -/
def Platform.engine {n : Nat} (p : Platform n) (i : Fin n) : State := p.engines[i]

/-- Put an engine's new state in its place. -/
def Platform.setEngine {n : Nat} (p : Platform n) (i : Fin n) (s : State) : Platform n :=
  ⟨p.engines.set i s⟩

/-- One step of engine i. -/
def Platform.step {n : Nat} (p : Platform n) (i : Fin n) : Host.Outcome (Platform n) Fault Refusal :=
  match Sys2Proof.Machine.step (p.engine i) with
  | .next s => .next (p.setEngine i s)
  | .fault r => .fault r
  | .refused r => .refused r

/-- An event for engine i joins that engine's own order of events (R38). -/
def Platform.deliver {n : Nat} (p : Platform n) (i : Fin n) (e : HostEvent) : Platform n :=
  p.setEngine i ((p.engine i).withPending ((p.engine i).pending ++ [e]))

/-- Where one engine's ports sit in the platform's address map: the command port's address and the first address of the
64-byte readout space. -/
structure Placement where
  commandPort : Nat
  readoutBase : Nat
  deriving DecidableEq, Repr

/-- An access of the platform's bus. -/
inductive BusAccess
  | write (addr : Nat) (w : Word)
  | read (addr : Nat)
  deriving DecidableEq, Repr

/-- The event an access is at an engine so placed, if it reaches that engine: the host cannot read the command port and
cannot write the readout space (R27). -/
def Placement.event (pl : Placement) : BusAccess → Option HostEvent
  | .write addr w => if addr = pl.commandPort then some (.command w) else none
  | .read addr =>
    if pl.readoutBase ≤ addr ∧ addr < pl.readoutBase + 64 then some (.read (BitVec.ofNat 6 (addr - pl.readoutBase)))
    else none

/-- Deliver an access to the engines it reaches, in the order of their numbers. What an access that reaches no engine
does is the platform's own (log entry 9): no engine sees it. -/
def Platform.access {n : Nat} (pls : Vector Placement n) (acc : BusAccess) (p : Platform n) : Platform n :=
  (List.finRange n).foldl
    (fun p i =>
      match (pls[i]).event acc with
      | some e => p.deliver i e
      | none => p) p

end Sys2Proof.Machine
end

