-- ==== Sys2Proof/Machine/Ring.lean ====
section
/-! DEFINITION. The ring view of the accumulator (10_state.md R16), the ring form of the fold (41_update.md R64) and the
batched form (R63). The machine's step uses the naive form of R58 and R60; these are the other forms the spec gives,
to be proved equal to it. -/

namespace Sys2Proof.Machine

/-- `R = { W2[31:0], W1[63:0], W0[63:0] }` (R16). -/
def ring (s : State) : Ring := (s.readCell .c2).setWidth 32 ++ s.readCell .c1 ++ s.readCell .c0

/-- "A write to R means the matching writes to W0, W1 and W2" (R16). -/
def State.writeRing (s : State) (r : Ring) : State :=
  ((s.writeCell .c0 (r.extractLsb' 0 64)).writeCell .c1 (r.extractLsb' 64 64)).writeCell .c2
    ((r.extractLsb' 128 32).setWidth 64)

/-- `rotl_160(zext_160(b), q)` (R64). -/
def ringByte (q : Nat) (b : Byte) : Ring := (b.setWidth 160 : Ring).rotateLeft q

/-- FoldByte in ring form: `R <- R ^ rotl_160(zext_160(b), q)` (R64). -/
def foldByteRing (q : Nat) (b : Byte) (s : State) : State := s.writeRing (ring s ^^^ ringByte q b)

/-- The accumulator after a message folded from the zero state (R64): the XOR over j in [0,T) of
`rotl_160(zext_160(B[j]), (11*j) mod 160)`. -/
def messageRing (bs : List Byte) : Ring :=
  (List.range bs.length).foldl (fun r j => r ^^^ ringByte ((Config.SHIFT * j) % Config.WIDTH) (bs.getD j 0)) 0

/-- `X_i` (R63): the XOR of B[j] over all j in [0,n) with j mod 160 = i. -/
def phaseXor (bs : List Byte) (i : Nat) : Byte :=
  ((List.range bs.length).filter (fun j => j % Config.WIDTH == i)).foldl (fun x j => x ^^^ bs.getD j 0) 0

/-- The batched fold of a chunk (R63): each phase's XOR folded once, for i in [0, min(n,160)). -/
def foldBatched (q : Nat) (bs : List Byte) (s : State) : State :=
  (List.range (min bs.length Config.WIDTH)).foldl
    (fun t i => foldByte ((q + Config.SHIFT * i) % Config.WIDTH) (phaseXor bs i) t) s

/-- The batched update (R63): ROT and LEN as in R60. -/
def updateBatched (bs : List Byte) (s : State) : State :=
  ((foldBatched s.rot.toNat bs s).setRot
      (BitVec.ofNat 8 ((s.rot.toNat + Config.SHIFT * (bs.length % Config.WIDTH)) % Config.WIDTH))).setLen
    (s.len + BitVec.ofNat 64 bs.length)

/-- The digest read as a 160-bit little-endian integer, `Dint` (R68). -/
def littleEndianInt : List Byte → Ring
  | [] => 0
  | b :: bs => b.setWidth 160 ||| (littleEndianInt bs <<< 8)

end Sys2Proof.Machine
end

