-- ==== Sys2Proof/Safety.lean ====
section
/-! DEFINITION. What counts as a safe run, in the terms the claims use: the invariant of the registers, runs of host
events, and the host duties that are premises of a claim about a digest (70_reset_and_hazards.md R87..R91, R94). -/

namespace Sys2Proof.Machine

/-- The register invariant: W2[63:32] is 0 (R15), ROT is in [0,160) (R18), and while ERR is 0 ECMD holds 0 (R22). -/
abbrev Inv (s : State) : Prop :=
  s.w2.extractLsb' 32 32 = 0 ∧ s.rot.toNat < Config.WIDTH ∧ (s.err = false → s.ecmd = 0)

/-- The hashing registers are at the zero state (R55). -/
abbrev HashZero (s : State) : Prop := s.w0 = 0 ∧ s.w1 = 0 ∧ s.w2 = 0 ∧ s.len = 0 ∧ s.rot = 0

/-- The two states agree on W0, W1, W2, LEN and ROT. -/
abbrev SameHash (s t : State) : Prop :=
  s.w0 = t.w0 ∧ s.w1 = t.w1 ∧ s.w2 = t.w2 ∧ s.len = t.len ∧ s.rot = t.rot

/-- The registers hold the closed form of the message m: the ring of R64, LEN = T mod 2^64 and ROT = 11 T mod 160 for its
T bytes (R19). -/
abbrev MessageState (m : List Byte) (s : State) : Prop :=
  ring s = messageRing m ∧ s.len.toNat = m.length % 2 ^ 64 ∧ s.rot.toNat = (Config.SHIFT * m.length) % Config.WIDTH

/-- The run of a list of host events from a state, by the host's own `Core.run`: the events are the pending ones, and
the machine takes one step for each (R93, R94). -/
def runOf (es : List HostEvent) (s : State) : Host.Outcome State Fault Refusal :=
  Host.Core.run Sys2Proof.core es.length (s.withPending es)

/-- The events of issuing command words in order. -/
def commands (ws : List Word) : List HostEvent := ws.map .command

/-- The 20 reads of the digest, with no command between them (R91, R94). -/
def digestReads : List HostEvent := (List.range Config.DIGEST_BYTES).map fun a => .read (BitVec.ofNat 6 a)

/-- The read of STATUS (R31). -/
def statusRead : HostEvent := .read 0x14

/-- The events of one digest claim (R94): the command words issued, then the 20 digest reads, then the read of STATUS. -/
def digestRun (ws : List Word) : List HostEvent := commands ws ++ digestReads ++ [statusRead]

/-- The event is not the reset input. -/
def notReset : HostEvent → Bool
  | .command _ => true
  | .read _ => true
  | .resetInput _ => false

end Sys2Proof.Machine
end

