-- ==== Sys2Proof/Certificates/Slice0/Obligations.lean ====
section
/-! DEFINITION. The statements about QXE for the provers. Each docstring names the rule of spec/ it formalises. `runOf es s` is the host's `Core.run` over the events es from the registers of s. -/

namespace Sys2Proof.Claims

open Sys2Proof.Machine

/-- A chunk of n bytes that together change the ring by r was folded (R60, R64): the ring, ROT and LEN move, and nothing
else does. -/
def Folded (r : Ring) (n : Nat) (s t : State) : Prop :=
  ring t = ring s ^^^ r ∧ t.rot.toNat = (s.rot.toNat + 11 * n) % 160 ∧ t.len = s.len + BitVec.ofNat 64 n ∧
    t.err = s.err ∧ t.ecmd = s.ecmd ∧ t.pending = s.pending ∧ t.observed = s.observed ∧
    (s.w2.extractLsb' 32 32 = 0 → t.w2.extractLsb' 32 32 = 0)

/-- A byte of a command word at an index, `cmd[8i+7:8i]` (R45). -/
def cmdByte (cmd : Word) (i : Nat) : Byte := cmd.extractLsb' (8 * i) 8

/-- The byte has an odd number of set bits (R66). -/
def OddParity (x : Byte) : Prop := ((List.range 8).filter fun k => x.getLsbD k).length % 2 = 1

end Sys2Proof.Claims

open Sys2Proof Sys2Proof.Machine Sys2Proof.Claims

/-! ### Parameters -/

/-- R8: the parameters fit together, and one period of 160 byte phases visits 160 distinct positions. -/
def Obligations.ParametersAreConsistent : Prop :=
  Config.CELL_W .c0 + Config.CELL_W .c1 + Config.CELL_W .c2 = Config.WIDTH ∧ Config.WIDTH = 160 ∧
  Config.DIGEST_BYTES * 8 = Config.WIDTH ∧ Config.LEN_XOR_LO + 8 = Config.DIGEST_BYTES ∧
  Nat.Coprime Config.SHIFT Config.WIDTH ∧ Config.WIDTH = 2 ^ 5 * 5 ∧ Config.WIDTH * Config.SHIFT % Config.WIDTH = 0 ∧
  (∀ i j : Nat, i < 160 → j < 160 → Config.SHIFT * i % Config.WIDTH = Config.SHIFT * j % Config.WIDTH → i = j)

/-! ### Encoding -/

/-- A word of every row, and one of every kind of illegal word, decode as 30_encoding.md section 4 says. -/
def Obligations.WordsOfEveryFamilyDecode : Prop :=
  decode 0x00000000 = .ok .nop ∧ decode 0x10000000 = .ok .reset ∧ decode 0x20000000 = .ok .upd0 ∧
  decode 0x21000061 = .ok (.upd1 0x61) ∧ decode 0x22006261 = .ok (.upd2 0x61 0x62) ∧
  decode 0x23636261 = .ok (.upd3 0x61 0x62 0x63) ∧ decode 0x238000FF = .ok (.upd3 0xFF 0x00 0x80) ∧
  legal 0x30000000 = false ∧ legal 0x00000001 = false ∧ legal 0x21000100 = false ∧ legal 0x24000000 = false

/-- R52: the worked lines assemble to the words the table gives, and the four example words are illegal. -/
def Obligations.WorkedLinesAssemble : Prop :=
  assembleLine ['n', 'o', 'p'] = some [0x00000000] ∧
  assembleLine ['r', 'e', 's', 'e', 't'] = some [0x10000000] ∧
  assembleLine ['u', 'p', 'd'] = some [0x20000000] ∧
  assembleLine ['u', 'p', 'd', ' ', '0', 'x', '6', '1'] = some [0x21000061] ∧
  assembleLine ['u', 'p', 'd', ' ', tickChar, 'a', tickChar, ',', ' ', tickChar, 'b', tickChar] = some [0x22006261] ∧
  assembleLine ['u', 'p', 'd', ' ', tickChar, 'a', tickChar, ',', ' ', tickChar, 'b', tickChar, ',', ' ',
    tickChar, 'c', tickChar] = some [0x23636261] ∧
  assembleLine ['u', 'p', 'd', ' ', '0', 'x', 'F', 'F', ',', ' ', '0', 'x', '0', '0', ',', ' ', '0', 'x', '8', '0'] =
    some [0x238000FF] ∧
  assembleLine ['u', 'p', 'd', 's', ' ', quoteChar, 'h', 'e', 'l', 'l', 'o', quoteChar] =
    some [0x236C6568, 0x22006F6C] ∧
  legal 0x30000000 = false ∧ legal 0x00000001 = false ∧ legal 0x21000100 = false ∧ legal 0x24000000 = false

/-- Decode of encode is the command, for every command and operand; and a word that decodes to a command is the word
that command encodes to: "Every legal word has exactly one decoding, and every decoding has exactly one legal word"
(R48). -/
def Obligations.DecodeAndEncodeAgree : Prop :=
  (∀ i : Instr, decode (encode i) = .ok i) ∧ (∀ (w : Word) (i : Instr), decode w = .ok i → encode i = w)

/-- R48: the decoder read by arithmetic on the word alone. Each command is decoded from exactly the words of its format, such
as `0x23000000 | b2<<16 | b1<<8 | b0`; no other word decodes to a command. -/
def Obligations.DecodedWordsHaveTheirWrittenForm : Prop :=
  ∀ w : Word,
    (decode w = .ok .nop ↔ w = 0x00000000) ∧ (decode w = .ok .reset ↔ w = 0x10000000) ∧
    (decode w = .ok .upd0 ↔ w = 0x20000000) ∧
    (∀ b0 : Byte, decode w = .ok (.upd1 b0) ↔ w.toNat = 0x21000000 + b0.toNat) ∧
    (∀ b0 b1 : Byte, decode w = .ok (.upd2 b0 b1) ↔ w.toNat = 0x22000000 + b1.toNat * 2 ^ 8 + b0.toNat) ∧
    (∀ b0 b1 b2 : Byte, decode w = .ok (.upd3 b0 b1 b2) ↔
      w.toNat = 0x23000000 + b2.toNat * 2 ^ 16 + b1.toNat * 2 ^ 8 + b0.toNat)

/-- The opcode map of 30_encoding.md section 3: a word is legal exactly when it matches one of the six rows' match and
mask, it then matches no other row, and the row is its command's. -/
def Obligations.LegalWordsMatchOneTableRow : Prop :=
  ∀ w : Word,
    (∀ i : Instr, decode w = .ok i → ∀ (k : Nat) (r : Row), opcodeRows[k]? = some r →
      (r.matches w = true ↔ k = i.rowIndex)) ∧
    (legal w = true ↔ ∃ r ∈ opcodeRows, r.matches w = true)

/-- The reserved and illegal encodings of 30_encoding.md section 3, and no others, are illegal. -/
def Obligations.IllegalWordsAreTheReservedOnes : Prop :=
  ∀ w : Word,
    legal w = false ↔
      (3 ≤ w.toNat / 2 ^ 28) ∨ (w.toNat / 2 ^ 28 ≤ 1 ∧ w.toNat % 2 ^ 28 ≠ 0) ∨
      (w.toNat / 2 ^ 28 = 2 ∧
        (w.toNat / 2 ^ 26 % 4 ≠ 0 ∨ ∃ i, i < 3 ∧ w.toNat / 2 ^ 24 % 4 ≤ i ∧ cmdByte w i ≠ 0))

/-- An `upd` line with more than three operands or with one outside 0..255 produces no word, and every other one
produces its one word (30_encoding.md section 4). -/
def Obligations.UpdLinesAssembleOrAreRejected : Prop :=
  (∀ ops : List Nat, (AsmLine.upd ops).words = none ↔ (3 < ops.length ∨ ∃ v ∈ ops, 256 ≤ v)) ∧
  (AsmLine.upd []).words = some [0x20000000] ∧
  (∀ b0 : Byte, (AsmLine.upd [b0.toNat]).words = some [encode (.upd1 b0)]) ∧
  (∀ b0 b1 : Byte, (AsmLine.upd [b0.toNat, b1.toNat]).words = some [encode (.upd2 b0 b1)]) ∧
  (∀ b0 b1 b2 : Byte, (AsmLine.upd [b0.toNat, b1.toNat, b2.toNat]).words = some [encode (.upd3 b0 b1 b2)])

/-- The expansion of `upds` (30_encoding.md section 4): three bytes to a word in order, the one or two left over at the
end, and the words together fold exactly the bytes. -/
def Obligations.UpdsExpansionFoldsItsBytes : Prop :=
  ∀ bs : List Byte,
    (expandUpds bs).length = (bs.length + 2) / 3 ∧
    (∀ (k : Nat) (b0 b1 b2 : Byte), bs[3 * k]? = some b0 → bs[3 * k + 1]? = some b1 → bs[3 * k + 2]? = some b2 →
      (expandUpds bs)[k]? = some (.upd3 b0 b1 b2)) ∧
    (∀ b : Byte, bs.length % 3 = 1 → bs.getLast? = some b → (expandUpds bs).getLast? = some (.upd1 b)) ∧
    (∀ b0 b1 : Byte, bs.length % 3 = 2 → bs[bs.length - 2]? = some b0 → bs[bs.length - 1]? = some b1 →
      (expandUpds bs).getLast? = some (.upd2 b0 b1)) ∧
    dataOf ((expandUpds bs).map encode) = bs ∧
    (∀ s : State, s.rot.toNat < 160 →
      runOf (commands ((expandUpds bs).map encode)) s = .next ((update bs s).withPending []))

/-! ### The step -/

/-- R53: the oldest pending command word runs its command, an illegal one raises IllegalCommand, and every state has
exactly one next state. -/
def Obligations.StepRunsTheDecodedCommand : Prop :=
  (∀ (s : State) (w : Word) (rest : List HostEvent) (i : Instr),
    s.pending = .command w :: rest → decode w = .ok i → step s = exec i { s with pending := rest }) ∧
  (∀ (s : State) (w : Word) (rest : List HostEvent) (x : Illegal),
    s.pending = .command w :: rest → decode w = .error x →
      step s = .next (illegalCommand w { s with pending := rest })) ∧
  (∀ s : State, ∃ t, step s = .next t)

/-- A command word placed in front of the pending events is what the next step runs, the host's other events staying as
they were. How a word is placed is the model's choice (log entry 1). -/
def Obligations.PlacedWordRunsNext : Prop :=
  ∀ (s : State) (i : Instr),
    step (s.withFetchWord 32 (encode i).toNat) = exec i s ∧ decodeTableWord 32 (encode i).toNat = some i

/-- One run after another is the run of both lists: each event sees exactly the effects of the earlier ones
(20_memory.md section 6). -/
def Obligations.RunsCompose : Prop :=
  ∀ (es fs : List HostEvent) (s t : State), runOf es s = .next t → runOf (es ++ fs) s = runOf fs t

/-- With no event pending the step leaves the state as it is. The model's choice (log entry 3). -/
def Obligations.NothingPendingNothingChanges : Prop := ∀ s : State, s.pending = [] → step s = .next s

/-! ### The commands -/

/-- R54: NOP writes no register, its only word is 0x00000000, and a word with OP = 0x0 and another bit set is illegal. -/
def Obligations.NopWritesNoRegister : Prop :=
  (∀ s : State, exec .nop s = .next s) ∧ (∀ w : Word, decode w = .ok .nop ↔ w = 0) ∧
  (∀ w : Word, w.toNat / 2 ^ 28 = 0 → w ≠ 0 → legal w = false)

/-- R55: RESET zeroes W0, W1, W2, LEN and ROT and leaves ERR and ECMD and the host's lists; its only word is
0x10000000, a word with OP = 0x1 and another bit set is illegal, and after RESET the digest is 20 zero bytes. -/
def Obligations.ResetClearsTheHashOnly : Prop :=
  (∀ s : State, ∃ t, exec .reset s = .next t ∧
    t = { s with w0 := 0, w1 := 0, w2 := 0, len := 0, rot := 0 } ∧ digest t = List.replicate 20 0) ∧
  (∀ w : Word, decode w = .ok .reset ↔ w = 0x10000000) ∧
  (∀ w : Word, w.toNat / 2 ^ 28 = 1 → w ≠ 0x10000000 → legal w = false)

/-- UPD with CNT = 0 is a no-op (41_update.md section 2). -/
def Obligations.ZeroLengthUpdateChangesNothing : Prop :=
  ∀ s : State, s.rot.toNat < 160 → exec .upd0 s = .next s

/-- Every form of UPD completes, XORs each data byte into the ring at the running offset ROT, ROT + 11, ROT + 22 (mod
160), moves ROT and LEN, and leaves everything else (41_update.md sections 2 and 3). -/
def Obligations.UpdFoldsItsBytes : Prop :=
  ∀ s : State, s.rot.toNat < 160 →
    (∃ t, exec .upd0 s = .next t ∧ Folded 0 0 s t) ∧
    (∀ b0 : Byte, ∃ t, exec (.upd1 b0) s = .next t ∧ Folded ((b0.setWidth 160 : Ring).rotateLeft s.rot.toNat) 1 s t) ∧
    (∀ b0 b1 : Byte, ∃ t, exec (.upd2 b0 b1) s = .next t ∧
      Folded ((b0.setWidth 160 : Ring).rotateLeft s.rot.toNat ^^^
        (b1.setWidth 160 : Ring).rotateLeft ((s.rot.toNat + 11) % 160)) 2 s t) ∧
    (∀ b0 b1 b2 : Byte, ∃ t, exec (.upd3 b0 b1 b2) s = .next t ∧
      Folded ((b0.setWidth 160 : Ring).rotateLeft s.rot.toNat ^^^
        (b1.setWidth 160 : Ring).rotateLeft ((s.rot.toNat + 11) % 160) ^^^
        (b2.setWidth 160 : Ring).rotateLeft ((s.rot.toNat + 22) % 160)) 3 s t)

/-- R75: a legal command completes and raises no error, whatever the state, and leaves the host's lists; a readout read
completes too and raises none. -/
def Obligations.LegalCommandsNeverRaise : Prop :=
  (∀ (i : Instr) (s : State), ∃ t, exec i s = .next t ∧ t.err = s.err ∧ t.ecmd = s.ecmd ∧
    t.pending = s.pending ∧ t.observed = s.observed) ∧
  (∀ (a : RoAddr) (s : State), ∃ t, acceptEvent (.read a) s = .next t ∧ t.err = s.err ∧ t.ecmd = s.ecmd)

/-! ### The fold -/

/-- R58: the byte goes into its cell, shifted and masked; where fewer than 8 bits remain its high part goes into the
next cell; no other cell and no other register changes. -/
def Obligations.FoldByteWritesItsCells : Prop :=
  ∀ (c : Cell) (off : Nat) (b : Byte) (s : State), off < Config.CELL_W c →
    let t := foldByte (Config.CELL_BASE c + off) b s
    let rem := Config.CELL_W c - off
    t.readCell c = s.readCell c ^^^ ((b.setWidth 64 <<< off) &&& BitVec.ofNat 64 (2 ^ Config.CELL_W c - 1)) ∧
    t.readCell (nextCell c) =
      (if 8 ≤ rem then s.readCell (nextCell c) else s.readCell (nextCell c) ^^^ (b.setWidth 64 >>> rem)) ∧
    t.readCell (nextCell (nextCell c)) = s.readCell (nextCell (nextCell c)) ∧
    t.len = s.len ∧ t.rot = s.rot ∧ t.err = s.err ∧ t.ecmd = s.ecmd ∧ t.pending = s.pending ∧
    t.observed = s.observed

/-- R57 and R59: the cell lookup splits a ring position into base and offset, and Advance moves it by 11 mod 160. -/
def Obligations.AdvanceIsElevenModuloTheRing : Prop :=
  ∀ q : Nat, q < 160 →
    (cellOf q).2 < Config.CELL_W (cellOf q).1 ∧ Config.CELL_BASE (cellOf q).1 + (cellOf q).2 = q ∧
    advance (cellOf q) = cellOf ((q + 11) % 160)

/-- The 21 rows of R65's table: byte index, ring position, the cell the byte starts in, and low. -/
def Sys2Proof.Claims.straddleTable : List (Nat × Nat × Cell × Nat) :=
  [(11, 121, .c1, 7), (14, 154, .c2, 6), (20, 60, .c0, 4), (26, 126, .c1, 2), (29, 159, .c2, 1), (43, 153, .c2, 7),
    (49, 59, .c0, 5), (55, 125, .c1, 3), (58, 158, .c2, 2), (78, 58, .c0, 6), (84, 124, .c1, 4), (87, 157, .c2, 3),
    (93, 63, .c0, 1), (107, 57, .c0, 7), (113, 123, .c1, 5), (116, 156, .c2, 4), (122, 62, .c0, 2), (142, 122, .c1, 6),
    (145, 155, .c2, 5), (151, 61, .c0, 3), (157, 127, .c1, 1)]

/-- R65: the straddling and the exactly fitting positions, the table of the 160 byte indices, its period, and that every
position is visited in one period. -/
def Obligations.StraddlePositionsAreTheTable : Prop :=
  (∀ q, q < 160 → (remOf q < 8 ↔ (57 ≤ q ∧ q ≤ 63) ∨ (121 ≤ q ∧ q ≤ 127) ∨ (153 ≤ q ∧ q ≤ 159))) ∧
  (∀ q, q < 160 → (remOf q = 8 ↔ q = 56 ∨ q = 120 ∨ q = 152)) ∧
  (∀ r ∈ straddleTable, r.2.1 = 11 * r.1 % 160 ∧ (cellOf r.2.1).1 = r.2.2.1 ∧ remOf r.2.1 = r.2.2.2) ∧
  (∀ j, j < 160 → (remOf (11 * j % 160) < 8 ↔ j ∈ straddleTable.map (·.1))) ∧
  (11 * 136 % 160 = 56 ∧ 11 * 40 % 160 = 120 ∧ 11 * 72 % 160 = 152) ∧
  (∀ j, 11 * (j + 160) % 160 = 11 * j % 160) ∧ (∀ q, q < 160 → ∃ j, j < 160 ∧ 11 * j % 160 = q)

/-- R61: n single advances and the chunk formula give the same offset, and ROT after a chunk is the running offset at the
end of its loop. -/
def Obligations.RotIsTheRunningOffset : Prop :=
  (∀ q n : Nat, q < 160 → runningOffset q n = (q + 11 * (n % 160)) % 160) ∧
  (∀ (bs : List Byte) (s : State), s.rot.toNat < 160 →
    (update bs s).rot.toNat = runningOffset s.rot.toNat bs.length)

/-- R64: the ring form. A fold XORs the byte rotated left by q into the ring, bit by bit as well; it is the same state
change as the ring-form fold; and a message from the zero state gives the closed form. -/
def Obligations.FoldIsARingRotation : Prop :=
  (∀ (q : Nat) (b : Byte) (s : State), q < 160 →
    ring (foldByte q b s) = ring s ^^^ (b.setWidth 160 : Ring).rotateLeft q ∧
    (∀ p : Nat, p < 160 → (ring (foldByte q b s)).getLsbD p =
      ((ring s).getLsbD p ^^ b.getLsbD ((p + 160 - q) % 160))) ∧
    (s.w2.extractLsb' 32 32 = 0 → foldByte q b s = foldByteRing q b s)) ∧
  (∀ (bs : List Byte) (s : State), HashZero s →
    ring (update bs s) = messageRing bs ∧ (update bs s).rot.toNat = 11 * bs.length % 160 ∧
    (update bs s).len.toNat = bs.length % 2 ^ 64)

/-- Chunk invariance of Update (41_update.md section 3): any split into consecutive parts gives the same state. -/
def Obligations.UpdateIsChunkInvariant : Prop :=
  ∀ (parts : List (List Byte)) (s : State), s.rot.toNat < 160 →
    update parts.flatten s = parts.foldl (fun t part => update part t) s

/-- R62: two command sequences of UPD and NOP words whose data bytes, concatenated in command order, are the same bring
the same start state to the same final state, that of one Update over the bytes. -/
def Obligations.SplitOfAMessageIsInvisible : Prop :=
  ∀ (ws vs : List Word) (s : State), s.rot.toNat < 160 → (∀ w ∈ ws, messageWord w = true) →
    (∀ w ∈ vs, messageWord w = true) → dataOf ws = dataOf vs →
    runOf (commands ws) s = .next ((update (dataOf ws) s).withPending []) ∧
    runOf (commands vs) s = .next ((update (dataOf ws) s).withPending [])

/-- R63: folding each phase's XOR once is the same as the naive byte-by-byte update, for a chunk of any length. -/
def Obligations.BatchedUpdateEqualsNaive : Prop :=
  ∀ (bs : List Byte) (s : State), s.rot.toNat < 160 → updateBatched bs s = update bs s

/-- R66: the algebraic consequences, for 160 and 320 copies of a byte, for messages with equal phase XORs, and for equal
rings under different lengths. -/
def Obligations.CopiesAndPhasesOfAMessage : Prop :=
  (∀ (x : Byte) (s : State), HashZero s →
    (OddParity x → ring (update (List.replicate 160 x) s) = BitVec.allOnes 160) ∧
    (¬ OddParity x → ring (update (List.replicate 160 x) s) = 0) ∧
    (update (List.replicate 160 x) s).rot = 0 ∧ (update (List.replicate 160 x) s).len = 160 ∧
    ring (update (List.replicate 320 x) s) = 0 ∧ (update (List.replicate 320 x) s).rot = 0 ∧
    (update (List.replicate 320 x) s).len = 320) ∧
  (∀ (as bs : List Byte) (s : State), HashZero s → as.length = bs.length →
    (∀ i, i < 160 → phaseXor as i = phaseXor bs i) →
    ring (update as s) = ring (update bs s) ∧ (update as s).rot = (update bs s).rot ∧
    (update as s).len = (update bs s).len ∧ digest (update as s) = digest (update bs s)) ∧
  (∀ s t : State, ring s = ring t → s.len ≠ t.len → digest s ≠ digest t)

/-- Order matters (90_conflicts.md C1): "ab" and "ba" have different digests. -/
def Obligations.OrderOfTheBytesMatters : Prop :=
  digest (update [0x61, 0x62] State.reset) ≠ digest (update [0x62, 0x61] State.reset)

/-! ### Digest and readout -/

/-- R69: the digest, byte by byte. -/
def Obligations.DigestByteTable : Prop :=
  ∀ s : State, (digest s).length = 20 ∧
    (∀ k, k < 8 → (digest s)[k]? = some (s.w0.extractLsb' (8 * k) 8)) ∧
    (∀ k, k < 4 → (digest s)[8 + k]? = some (s.w1.extractLsb' (8 * k) 8)) ∧
    (∀ k, k < 4 → (digest s)[12 + k]? = some (s.w1.extractLsb' (8 * (4 + k)) 8 ^^^ s.len.extractLsb' (8 * k) 8)) ∧
    (∀ k, k < 4 → (digest s)[16 + k]? = some (s.w2.extractLsb' (8 * k) 8 ^^^ s.len.extractLsb' (8 * (4 + k)) 8))

/-- R68: the digest as a little-endian integer is the ring XOR the length at ring bits 96..159, and for a fixed ring
the length can be told from the digest. -/
def Obligations.DigestIsRingXorLength : Prop :=
  (∀ s : State, littleEndianInt (digest s) = ring s ^^^ ((s.len.setWidth 160 : Ring) <<< 96)) ∧
  (∀ s t : State, ring s = ring t → littleEndianInt (digest s) = littleEndianInt (digest t) → s.len = t.len)

/-- R70: 20 reads of addresses 0x00..0x13 with no command between them return the digest, change no register, and later
commands continue the same message. -/
def Obligations.DigestReadsReturnTheDigest : Prop :=
  (∀ (s : State) (a : RoAddr), a.toNat < 20 → (digest s)[a.toNat]? = some (readOut s a)) ∧
  (∀ s : State, runOf digestReads s = .next { s with pending := [], observed := s.observed ++ digest s }) ∧
  (∀ (s : State) (ws : List Word), ∃ t u, runOf (digestReads ++ commands ws) s = .next t ∧
    runOf (commands ws) s = .next u ∧ SameHash t u ∧ t.err = u.err ∧ t.ecmd = u.ecmd)

/-- R29: the readout map, every field little-endian, and every reserved byte 0 (the spec's own decision, log entry 10). -/
def Obligations.ReadoutMapFields : Prop :=
  ∀ s : State,
    readOut s 0x14 = (if s.err then 0x01 else 0x00) ∧
    (∀ k, k < 20 → (digest s)[k]? = some (readOut s (BitVec.ofNat 6 k))) ∧
    (∀ k, k < 3 → readOut s (BitVec.ofNat 6 (0x15 + k)) = 0 ∧ readOut s (BitVec.ofNat 6 (0x39 + k)) = 0) ∧
    (∀ k, k < 8 → readOut s (BitVec.ofNat 6 (0x18 + k)) = s.len.extractLsb' (8 * k) 8 ∧
      readOut s (BitVec.ofNat 6 (0x20 + k)) = s.w0.extractLsb' (8 * k) 8 ∧
      readOut s (BitVec.ofNat 6 (0x28 + k)) = s.w1.extractLsb' (8 * k) 8 ∧
      readOut s (BitVec.ofNat 6 (0x30 + k)) = (if k < 4 then s.w2.extractLsb' (8 * k) 8 else 0)) ∧
    readOut s 0x38 = s.rot ∧
    (∀ k, k < 4 → readOut s (BitVec.ofNat 6 (0x3C + k)) = s.ecmd.extractLsb' (8 * k) 8)

/-- R34: a sequence of reads with no command between them changes no register, and each read returns what its address
returns in the state before all of them. -/
def Obligations.ReadsArePure : Prop :=
  ∀ (s : State) (as : List RoAddr),
    runOf (as.map .read) s = .next { s with pending := [], observed := s.observed ++ as.map (readOut s) }

/-- 70_reset_and_hazards.md section 3: a UPD between the reads of LEN's bytes can return a value that LEN never had. -/
def Obligations.TornReadIsPossible : Prop :=
  let s : State := { State.reset with len := 0xFF }
  ∃ t, runOf [.read 0x18, .command 0x21000000, .read 0x19] s = .next t ∧ s.len = 0xFF ∧ t.len = 0x100 ∧
    t.observed = [0xFF, 0x01]

/-- R71: with no data byte folded since the reset input or the last RESET, the digest is 20 zero bytes. -/
def Obligations.EmptyMessageDigestIsZero : Prop :=
  ∀ (s : State) (d : Option Word) (es : List HostEvent), messageOf es = [] →
    ∃ t, runOf (.resetInput d :: es) s = .next t ∧ digest t = List.replicate 20 0

/-- 42_finalize.md: length sensitivity is no guarantee. After any 96 bytes from the zero state, appending 0x01 changes LEN
and leaves the digest. -/
def Obligations.LengthXorCanCancel : Prop :=
  ∀ (bs : List Byte) (s : State), HashZero s → bs.length = 96 →
    digest (update (bs ++ [0x01]) s) = digest (update bs s) ∧ (update (bs ++ [0x01]) s).len ≠ (update bs s).len

/-! ### Errors and resets -/

/-- R73: an illegal word writes only ERR and, if ERR was 0, ECMD; the engine goes on, and any later events bring W0, W1,
W2, LEN and ROT where they bring them without the illegal word; and ERR stays 1, with ECMD as it is, through any later
events that are not the reset input. -/
def Obligations.IllegalCommandIsRecordedOnce : Prop :=
  ∀ (s : State) (w : Word) (rest : List HostEvent), s.pending = .command w :: rest → legal w = false →
    step s = .next { s with pending := rest, err := true, ecmd := if s.err then s.ecmd else w } ∧
    (∀ es : List HostEvent, ∃ t u, runOf (.command w :: es) s = .next t ∧ runOf es s = .next u ∧ SameHash t u) ∧
    (∀ es : List HostEvent, (∀ e ∈ es, notReset e = true) →
      ∃ t, runOf (.command w :: es) s = .next t ∧ t.err = true ∧ t.ecmd = (if s.err then s.ecmd else w))

/-- R21 and R22: after the reset input and any events, ERR is 1 exactly when an illegal word came since the last reset
input, STATUS bit 0 shows it, and ECMD holds the first such word, or 0 if there is none. -/
def Obligations.ErrorStateIsTheFirstIllegalWord : Prop :=
  ∀ (s : State) (d : Option Word) (es : List HostEvent),
    ∃ t, runOf (.resetInput d :: es) s = .next t ∧ t.err = (firstIllegal es).isSome ∧
      t.ecmd = (firstIllegal es).getD 0 ∧ (readOut t 0x14).getLsbD 0 = (firstIllegal es).isSome

/-- R84 and R85: the reset input sets all seven registers to 0, discards a command arriving with it, and leaves the
host's later events to be accepted next. -/
def Obligations.ResetInputWins : Prop :=
  ∀ (s : State) (d : Option Word) (rest : List HostEvent), s.pending = .resetInput d :: rest →
    step s = .next { w0 := 0, w1 := 0, w2 := 0, len := 0, rot := 0, err := false, ecmd := 0,
                     pending := rest, observed := s.observed }

/-- R25: the values after the reset input, and those after the RESET command. -/
def Obligations.RegistersAfterReset : Prop :=
  (State.reset.w0 = 0 ∧ State.reset.w1 = 0 ∧ State.reset.w2 = 0 ∧ State.reset.len = 0 ∧ State.reset.rot = 0 ∧
    State.reset.err = false ∧ State.reset.ecmd = 0) ∧
  (∀ (s : State) (d : Option Word), ∃ t, acceptEvent (.resetInput d) s = .next t ∧ HashZero t ∧ t.err = false ∧
    t.ecmd = 0) ∧
  (∀ s : State, ∃ t, exec .reset s = .next t ∧ HashZero t ∧ t.err = s.err ∧ t.ecmd = s.ecmd)

/-- R56: the RESET command and the reset input give the same W0, W1, W2, LEN and ROT, and differ only in ERR and ECMD. -/
def Obligations.ResetCommandAndInputAgreeOnTheHash : Prop :=
  ∀ (s : State) (d : Option Word), ∃ t u, runOf [.command 0x10000000] s = .next t ∧ runOf [.resetInput d] s = .next u ∧
    SameHash t u ∧ HashZero t ∧ t.err = s.err ∧ t.ecmd = s.ecmd ∧ u.err = false ∧ u.ecmd = 0 ∧
    t.pending = u.pending ∧ t.observed = u.observed

/-! ### Whole-machine rules -/

/-- Every step keeps the invariant (10_state.md sections 2, 3 and 5): W2[63:32] is 0, ROT is in [0,160), and while ERR
is 0 ECMD is 0. -/
def Obligations.StepKeepsTheRegisterInvariant : Prop :=
  ∀ s t : State, Inv s → step s = .next t → Inv t

/-- The invariant holds after reset. -/
def Obligations.RegisterInvariantAtReset : Prop := Inv State.reset

/-- R15: a write to W2 is masked, and W2[63:32] reads 0 in every state. -/
def Obligations.HighHalfOfW2IsHardwired : Prop :=
  (∀ (s : State) (v : Reg), (s.writeCell .c2 v).w2 = v &&& 0xFFFFFFFF) ∧
  (∀ s : State, (s.readCell .c2).extractLsb' 32 32 = 0 ∧ (s.readCell .c2).extractLsb' 0 32 = s.w2.extractLsb' 0 32) ∧
  (∀ (s : State) (v : Reg), (s.writeCell .c0 v).w0 = v ∧ (s.writeCell .c1 v).w1 = v)

/-- R24: which events write which registers, over every state and every event. -/
def Obligations.OnlyNamedEventsWriteRegisters : Prop :=
  ∀ (s : State) (e : HostEvent) (rest : List HostEvent), s.rot.toNat < 160 → s.pending = e :: rest →
    ∃ t, step s = .next t ∧ t.pending = rest ∧
      (¬ SameHash s t → (∃ w i, e = .command w ∧ decode w = .ok i ∧ i ≠ .nop ∧ i ≠ .upd0) ∨ ∃ d, e = .resetInput d) ∧
      (t.err ≠ s.err → (∃ w, e = .command w ∧ legal w = false ∧ t.err = true) ∨
        ∃ d, e = .resetInput d ∧ t.err = false) ∧
      (t.ecmd ≠ s.ecmd → (∃ w, e = .command w ∧ legal w = false ∧ s.err = false ∧ t.ecmd = w) ∨
        ∃ d, e = .resetInput d ∧ t.ecmd = 0) ∧
      (t.observed ≠ s.observed → ∃ a, e = .read a ∧ t.observed = s.observed ++ [readOut s a])

/-- The events after the reset input, from any state, bring the registers to the closed form of their message: the ring
is the XOR of the rotated bytes, LEN = T mod 2^64 and ROT = 11 T mod 160 for its T bytes (10_state.md section 3,
41_update.md section 3, 70_reset_and_hazards.md section 2). -/
def Obligations.EventsReachTheirMessageState : Prop :=
  ∀ (s : State) (d : Option Word) (es : List HostEvent),
    ∃ t, runOf (.resetInput d :: es) s = .next t ∧ ring t = messageRing (messageOf es) ∧
      t.len.toNat = (messageOf es).length % 2 ^ 64 ∧ t.rot.toNat = 11 * (messageOf es).length % 160 ∧
      ((messageOf es).length < 2 ^ 64 → t.rot.toNat = 11 * t.len.toNat % 160) ∧ Inv t

/-- One event keeps the closed form: from any state that holds the closed form of a message m, the step on the oldest
pending event reaches the closed form of m as that event extends it (R19, R64 and R87: 10_state.md section 3,
41_update.md section 3, 70_reset_and_hazards.md section 2). -/
def Obligations.StepExtendsTheMessageState : Prop :=
  ∀ (m : List Byte) (s : State) (e : HostEvent) (rest : List HostEvent), MessageState m s → s.pending = e :: rest →
    ∃ t, step s = .next t ∧ MessageState (extendMessage m e) t

/-- After reset, and after the reset input from any state, the registers hold the closed form of the empty message. -/
def Obligations.EmptyMessageStateAfterReset : Prop :=
  MessageState [] State.reset ∧
  ∀ (s : State) (d : Option Word), ∃ t, acceptEvent (.resetInput d) s = .next t ∧ MessageState [] t

/-- A digest claim (70_reset_and_hazards.md sections 2 and 5): after the reset input, any command words, the 20 digest
reads and the read of STATUS. STATUS reads 0 exactly when every word was legal, and the 20 bytes are the message's
closed form with its length. That STATUS bits 7:1 read 0 is the spec's own decision (log entry 10). -/
def Obligations.TrustedDigestIsTheMessages : Prop :=
  ∀ (s : State) (d : Option Word) (ws : List Word),
    ∃ (t : State) (bytes : List Byte) (status : Byte),
      runOf (.resetInput d :: digestRun ws) s = .next t ∧ t.observed = s.observed ++ bytes ++ [status] ∧
      bytes.length = 20 ∧ (status = 0 ↔ ∀ w ∈ ws, legal w = true) ∧
      littleEndianInt bytes = messageRing (messageOf (commands ws)) ^^^
        (((BitVec.ofNat 64 (messageOf (commands ws)).length).setWidth 160 : Ring) <<< 96)

/-! ### Several engines and several hosts -/

/-- R79: a step of one engine changes no other engine, is that engine's own step, always completes, and steps of two
engines commute. -/
def Obligations.EnginesAreIndependent : Prop :=
  ∀ (n : Nat) (p : Platform n) (i j : Fin n), i ≠ j →
    (∃ t, p.step i = .next t ∧ t.engine j = p.engine j ∧ step (p.engine i) = .next (t.engine i)) ∧
    (∃ p1 p2 q1, p.step i = .next p1 ∧ p1.step j = .next p2 ∧ p.step j = .next q1 ∧ q1.step i = .next p2) ∧
    (∀ e : HostEvent, (p.deliver i e).engine j = p.engine j)

/-- A bus access reaches exactly the engines whose placement it hits (20_memory.md section 5): there it joins the
pending events and no register changes. The routing is the model's choice (log entry 9). -/
def Obligations.AccessReachesOnlyItsEngine : Prop :=
  ∀ (n : Nat) (pls : Vector Placement n) (acc : BusAccess) (p : Platform n) (i : Fin n),
    (Platform.access pls acc p).engine i =
      (p.engine i).withPending ((p.engine i).pending ++ ((pls[i]).event acc).toList)

/-- 60_exceptions.md section 3: every interleaving of several hosts' command words is a merge that keeps each host's
order, both orders of two hosts are among them, and the state it reaches is the fold of the interleaved bytes. -/
def Obligations.InterleavingsFoldTheMergedBytes : Prop :=
  (∀ as bs : List HostEvent, Interleaving [as, bs] (as ++ bs) ∧ Interleaving [as, bs] (bs ++ as)) ∧
  (∀ (hosts : List (List Word)) (es : List HostEvent), Interleaving (hosts.map commands) es →
    ∃ ws : List Word, es = commands ws ∧ ws.Perm hosts.flatten ∧ (∀ h ∈ hosts, h.Sublist ws) ∧
      (∀ s : State, ∃ t, runOf es s = .next t) ∧
      (∀ s : State, s.rot.toNat < 160 → (∀ w ∈ ws, messageWord w = true) →
        runOf es s = .next ((update (dataOf ws) s).withPending [])))
end

