-- ==== Sys2Proof/Laws/Bits.lean ====
section
/-! SUPPORT. The bits of the two concatenations of the model, the format U word and the ring view, one lemma each. -/

namespace Sys2Proof

/-- A bit of a format U word (R45). -/
theorem getLsbD_packU (cnt : BitVec 2) (d2 d1 d0 : Byte) (k : Nat) :
    (packU cnt d2 d1 d0).getLsbD k =
      if k < 8 then d0.getLsbD k
      else if k < 16 then d1.getLsbD (k - 8)
      else if k < 24 then d2.getLsbD (k - 16)
      else if k < 26 then cnt.getLsbD (k - 24)
      else k == 29 := by
  have h2 : ∀ j, (2 : BitVec 4).getLsbD j = (j == 1) := by
    intro j
    rcases Nat.lt_or_ge j 4 with h | h
    · interval_cases j <;> rfl
    · rw [BitVec.getLsbD_of_ge _ _ h]; symm; simp; omega
  show ((2 : BitVec 4) ++ (0 : BitVec 2) ++ cnt ++ d2 ++ d1 ++ d0).getLsbD k = _
  simp only [BitVec.getLsbD_append, h2]
  split_ifs <;> first | omega | (congr 1 <;> omega) | (simp; omega)

namespace Machine

/-- A ring bit is the matching cell bit (R16). -/
theorem getLsbD_ring (s : State) (p : Nat) :
    (ring s).getLsbD p =
      if p < 64 then s.w0.getLsbD p
      else if p < 128 then s.w1.getLsbD (p - 64)
      else decide (p < 160) && s.w2.getLsbD (p - 128) := by
  have hm : ∀ j, (maskReg 32).getLsbD j = decide (j < 32) := by
    intro j
    rcases Nat.lt_or_ge j 64 with h | h
    · interval_cases j <;> rfl
    · rw [BitVec.getLsbD_of_ge _ _ h]; symm; simp; omega
  show (((s.w2 &&& maskReg 32).setWidth 32 ++ s.w1 ++ s.w0).getLsbD p) = _
  simp only [BitVec.getLsbD_append, BitVec.getLsbD_setWidth, BitVec.getLsbD_and, hm]
  split_ifs with h1 h2 h3
  · rfl
  · rfl
  · omega
  · omega
  · have e : p - 64 - 64 = p - 128 := by omega
    rw [e]
    by_cases h : p < 160
    · have : p - 128 < 32 := by omega
      simp [h, this]
    · have : ¬ p - 128 < 32 := by omega
      simp [h, this]

end Machine
end Sys2Proof
end

