-- ==== Sys2Proof/Laws/State.lean ====
section
/-! SUPPORT. One lemma per field per register update (true by rfl), and the read-after-write laws of the cells. -/

namespace Sys2Proof.Machine

variable (s : State)

@[simp] theorem writeCell_c0_w0 (v : Reg) : (s.writeCell .c0 v).w0 = v := rfl
@[simp] theorem writeCell_c0_w1 (v : Reg) : (s.writeCell .c0 v).w1 = s.w1 := rfl
@[simp] theorem writeCell_c0_w2 (v : Reg) : (s.writeCell .c0 v).w2 = s.w2 := rfl
@[simp] theorem writeCell_c0_len (v : Reg) : (s.writeCell .c0 v).len = s.len := rfl
@[simp] theorem writeCell_c0_rot (v : Reg) : (s.writeCell .c0 v).rot = s.rot := rfl
@[simp] theorem writeCell_c0_err (v : Reg) : (s.writeCell .c0 v).err = s.err := rfl
@[simp] theorem writeCell_c0_ecmd (v : Reg) : (s.writeCell .c0 v).ecmd = s.ecmd := rfl
@[simp] theorem writeCell_c0_pending (v : Reg) : (s.writeCell .c0 v).pending = s.pending := rfl
@[simp] theorem writeCell_c0_observed (v : Reg) : (s.writeCell .c0 v).observed = s.observed := rfl

@[simp] theorem writeCell_c1_w0 (v : Reg) : (s.writeCell .c1 v).w0 = s.w0 := rfl
@[simp] theorem writeCell_c1_w1 (v : Reg) : (s.writeCell .c1 v).w1 = v := rfl
@[simp] theorem writeCell_c1_w2 (v : Reg) : (s.writeCell .c1 v).w2 = s.w2 := rfl
@[simp] theorem writeCell_c1_len (v : Reg) : (s.writeCell .c1 v).len = s.len := rfl
@[simp] theorem writeCell_c1_rot (v : Reg) : (s.writeCell .c1 v).rot = s.rot := rfl
@[simp] theorem writeCell_c1_err (v : Reg) : (s.writeCell .c1 v).err = s.err := rfl
@[simp] theorem writeCell_c1_ecmd (v : Reg) : (s.writeCell .c1 v).ecmd = s.ecmd := rfl
@[simp] theorem writeCell_c1_pending (v : Reg) : (s.writeCell .c1 v).pending = s.pending := rfl
@[simp] theorem writeCell_c1_observed (v : Reg) : (s.writeCell .c1 v).observed = s.observed := rfl

@[simp] theorem writeCell_c2_w0 (v : Reg) : (s.writeCell .c2 v).w0 = s.w0 := rfl
@[simp] theorem writeCell_c2_w1 (v : Reg) : (s.writeCell .c2 v).w1 = s.w1 := rfl
@[simp] theorem writeCell_c2_w2 (v : Reg) : (s.writeCell .c2 v).w2 = v &&& maskReg 32 := rfl
@[simp] theorem writeCell_c2_len (v : Reg) : (s.writeCell .c2 v).len = s.len := rfl
@[simp] theorem writeCell_c2_rot (v : Reg) : (s.writeCell .c2 v).rot = s.rot := rfl
@[simp] theorem writeCell_c2_err (v : Reg) : (s.writeCell .c2 v).err = s.err := rfl
@[simp] theorem writeCell_c2_ecmd (v : Reg) : (s.writeCell .c2 v).ecmd = s.ecmd := rfl
@[simp] theorem writeCell_c2_pending (v : Reg) : (s.writeCell .c2 v).pending = s.pending := rfl
@[simp] theorem writeCell_c2_observed (v : Reg) : (s.writeCell .c2 v).observed = s.observed := rfl

@[simp] theorem setLen_w0 (v : Reg) : (s.setLen v).w0 = s.w0 := rfl
@[simp] theorem setLen_w1 (v : Reg) : (s.setLen v).w1 = s.w1 := rfl
@[simp] theorem setLen_w2 (v : Reg) : (s.setLen v).w2 = s.w2 := rfl
@[simp] theorem setLen_len (v : Reg) : (s.setLen v).len = v := rfl
@[simp] theorem setLen_rot (v : Reg) : (s.setLen v).rot = s.rot := rfl
@[simp] theorem setLen_err (v : Reg) : (s.setLen v).err = s.err := rfl
@[simp] theorem setLen_ecmd (v : Reg) : (s.setLen v).ecmd = s.ecmd := rfl
@[simp] theorem setLen_pending (v : Reg) : (s.setLen v).pending = s.pending := rfl
@[simp] theorem setLen_observed (v : Reg) : (s.setLen v).observed = s.observed := rfl

@[simp] theorem setRot_w0 (v : BitVec 8) : (s.setRot v).w0 = s.w0 := rfl
@[simp] theorem setRot_w1 (v : BitVec 8) : (s.setRot v).w1 = s.w1 := rfl
@[simp] theorem setRot_w2 (v : BitVec 8) : (s.setRot v).w2 = s.w2 := rfl
@[simp] theorem setRot_len (v : BitVec 8) : (s.setRot v).len = s.len := rfl
@[simp] theorem setRot_rot (v : BitVec 8) : (s.setRot v).rot = v := rfl
@[simp] theorem setRot_err (v : BitVec 8) : (s.setRot v).err = s.err := rfl
@[simp] theorem setRot_ecmd (v : BitVec 8) : (s.setRot v).ecmd = s.ecmd := rfl
@[simp] theorem setRot_pending (v : BitVec 8) : (s.setRot v).pending = s.pending := rfl
@[simp] theorem setRot_observed (v : BitVec 8) : (s.setRot v).observed = s.observed := rfl

@[simp] theorem latchError_w0 (cmd : Word) : (s.latchError cmd).w0 = s.w0 := rfl
@[simp] theorem latchError_w1 (cmd : Word) : (s.latchError cmd).w1 = s.w1 := rfl
@[simp] theorem latchError_w2 (cmd : Word) : (s.latchError cmd).w2 = s.w2 := rfl
@[simp] theorem latchError_len (cmd : Word) : (s.latchError cmd).len = s.len := rfl
@[simp] theorem latchError_rot (cmd : Word) : (s.latchError cmd).rot = s.rot := rfl
@[simp] theorem latchError_err (cmd : Word) : (s.latchError cmd).err = true := rfl
@[simp] theorem latchError_ecmd (cmd : Word) : (s.latchError cmd).ecmd = if s.err then s.ecmd else cmd := rfl
@[simp] theorem latchError_pending (cmd : Word) : (s.latchError cmd).pending = s.pending := rfl
@[simp] theorem latchError_observed (cmd : Word) : (s.latchError cmd).observed = s.observed := rfl

@[simp] theorem clearError_w0 : (s.clearError).w0 = s.w0 := rfl
@[simp] theorem clearError_w1 : (s.clearError).w1 = s.w1 := rfl
@[simp] theorem clearError_w2 : (s.clearError).w2 = s.w2 := rfl
@[simp] theorem clearError_len : (s.clearError).len = s.len := rfl
@[simp] theorem clearError_rot : (s.clearError).rot = s.rot := rfl
@[simp] theorem clearError_err : (s.clearError).err = false := rfl
@[simp] theorem clearError_ecmd : (s.clearError).ecmd = 0 := rfl
@[simp] theorem clearError_pending : (s.clearError).pending = s.pending := rfl
@[simp] theorem clearError_observed : (s.clearError).observed = s.observed := rfl

@[simp] theorem withPending_w0 (es : List HostEvent) : (s.withPending es).w0 = s.w0 := rfl
@[simp] theorem withPending_w1 (es : List HostEvent) : (s.withPending es).w1 = s.w1 := rfl
@[simp] theorem withPending_w2 (es : List HostEvent) : (s.withPending es).w2 = s.w2 := rfl
@[simp] theorem withPending_len (es : List HostEvent) : (s.withPending es).len = s.len := rfl
@[simp] theorem withPending_rot (es : List HostEvent) : (s.withPending es).rot = s.rot := rfl
@[simp] theorem withPending_err (es : List HostEvent) : (s.withPending es).err = s.err := rfl
@[simp] theorem withPending_ecmd (es : List HostEvent) : (s.withPending es).ecmd = s.ecmd := rfl
@[simp] theorem withPending_pending (es : List HostEvent) : (s.withPending es).pending = es := rfl
@[simp] theorem withPending_observed (es : List HostEvent) : (s.withPending es).observed = s.observed := rfl

@[simp] theorem observe_w0 (b : Byte) : (s.observe b).w0 = s.w0 := rfl
@[simp] theorem observe_w1 (b : Byte) : (s.observe b).w1 = s.w1 := rfl
@[simp] theorem observe_w2 (b : Byte) : (s.observe b).w2 = s.w2 := rfl
@[simp] theorem observe_len (b : Byte) : (s.observe b).len = s.len := rfl
@[simp] theorem observe_rot (b : Byte) : (s.observe b).rot = s.rot := rfl
@[simp] theorem observe_err (b : Byte) : (s.observe b).err = s.err := rfl
@[simp] theorem observe_ecmd (b : Byte) : (s.observe b).ecmd = s.ecmd := rfl
@[simp] theorem observe_pending (b : Byte) : (s.observe b).pending = s.pending := rfl
@[simp] theorem observe_observed (b : Byte) : (s.observe b).observed = s.observed ++ [b] := rfl

/-! Cells: a masked value masks to itself, and a write leaves the other cells alone (R15). -/

theorem maskReg32_idem (v : Reg) : v &&& maskReg 32 &&& maskReg 32 = v &&& maskReg 32 := by
  rw [BitVec.and_assoc, BitVec.and_self]

@[simp] theorem readCell_c0 : s.readCell .c0 = s.w0 := rfl
@[simp] theorem readCell_c1 : s.readCell .c1 = s.w1 := rfl
@[simp] theorem readCell_c2 : s.readCell .c2 = s.w2 &&& maskReg 32 := rfl

/-- A read after a write of the same cell gives the value written, masked to W2's effective width. -/
theorem readCell_writeCell_same (c : Cell) (v : Reg) :
    (s.writeCell c v).readCell c = v &&& maskReg (Config.CELL_W c) := by
  have h : maskReg 64 = BitVec.allOnes 64 := by decide
  cases c
  · exact (by rw [Config.CELL_W, h, BitVec.and_allOnes]; rfl)
  · exact (by rw [Config.CELL_W, h, BitVec.and_allOnes]; rfl)
  · exact maskReg32_idem v

/-- A write leaves every other cell alone. -/
theorem readCell_writeCell_ne {c d : Cell} (h : d ≠ c) (v : Reg) : (s.writeCell c v).readCell d = s.readCell d := by
  cases c <;> cases d <;> first | rfl | exact absurd rfl h

/-- Everything but the cells is left alone by a cell write. -/
theorem writeCell_frame (c : Cell) (v : Reg) :
    (s.writeCell c v).len = s.len ∧ (s.writeCell c v).rot = s.rot ∧ (s.writeCell c v).err = s.err ∧
      (s.writeCell c v).ecmd = s.ecmd ∧ (s.writeCell c v).pending = s.pending ∧
      (s.writeCell c v).observed = s.observed := by
  cases c <;> exact ⟨rfl, rfl, rfl, rfl, rfl, rfl⟩

end Sys2Proof.Machine
end

