-- ==== Sys2Proof/Laws/Ops.lean ====
section
/-! SUPPORT. What each shared operation over the registers can do, said once: the frame of the fold and of the chunk
update, and the two resets. -/

namespace Sys2Proof.Machine

/-- The fields no cell write touches. -/
structure SameButCells (s t : State) : Prop where
  len : t.len = s.len
  rot : t.rot = s.rot
  err : t.err = s.err
  ecmd : t.ecmd = s.ecmd
  pending : t.pending = s.pending
  observed : t.observed = s.observed

theorem SameButCells.refl (s : State) : SameButCells s s := ⟨rfl, rfl, rfl, rfl, rfl, rfl⟩

theorem SameButCells.trans {s t u : State} (h : SameButCells s t) (k : SameButCells t u) : SameButCells s u :=
  ⟨k.len.trans h.len, k.rot.trans h.rot, k.err.trans h.err, k.ecmd.trans h.ecmd, k.pending.trans h.pending,
    k.observed.trans h.observed⟩

theorem xorCell_sameButCells (s : State) (c : Cell) (v : Reg) : SameButCells s (s.xorCell c v) := by
  obtain ⟨h1, h2, h3, h4, h5, h6⟩ := writeCell_frame s c (s.readCell c ^^^ v)
  exact ⟨h1, h2, h3, h4, h5, h6⟩

/-- A fold writes cells only (R58). -/
theorem foldByte_sameButCells (q : Nat) (b : Byte) (s : State) : SameButCells s (foldByte q b s) := by
  unfold foldByte
  split
  · exact xorCell_sameButCells ..
  · exact (xorCell_sameButCells ..).trans (xorCell_sameButCells ..)

theorem foldBytes_sameButCells (bs : List Byte) : ∀ (q : Nat) (s : State), SameButCells s (foldBytes q bs s) := by
  induction bs with
  | nil => exact fun _ s => .refl s
  | cons b bs ih => exact fun q s => (foldByte_sameButCells q b s).trans (ih _ _)

theorem foldBytes_append (as bs : List Byte) :
    ∀ (q : Nat) (s : State),
      foldBytes q (as ++ bs) s = foldBytes (runningOffset q as.length) bs (foldBytes q as s) := by
  induction as with
  | nil => exact fun _ _ => rfl
  | cons a as ih => exact fun q s => ih _ _

/-- What the chunk update does beside the fold: the two counters, and nothing else (R60). -/
theorem update_fields (bs : List Byte) (s : State) :
    (update bs s).len = s.len + BitVec.ofNat 64 bs.length ∧
      (update bs s).rot = BitVec.ofNat 8 ((s.rot.toNat + 11 * (bs.length % 160)) % 160) ∧
      (update bs s).err = s.err ∧ (update bs s).ecmd = s.ecmd ∧ (update bs s).pending = s.pending ∧
      (update bs s).observed = s.observed := by
  have h := foldBytes_sameButCells bs s.rot.toNat s
  exact ⟨rfl, rfl, h.err, h.ecmd, h.pending, h.observed⟩

/-- The cells after a chunk update are the fold's (R60). -/
theorem update_readCell (bs : List Byte) (s : State) (c : Cell) :
    (update bs s).readCell c = (foldBytes s.rot.toNat bs s).readCell c := by
  cases c <;> rfl

theorem nextOffset_lt (q : Nat) : nextOffset q < 160 := Nat.mod_lt _ (by decide)

/-- The RESET command's registers, field by field (R55). -/
theorem clearHash_eq (s : State) : s.clearHash = { s with w0 := 0, w1 := 0, w2 := 0, len := 0, rot := 0 } := by
  simp [State.clearHash, State.writeCell, State.setLen, State.setRot]

/-- The reset input's registers (R84). -/
theorem assertReset_eq (s : State) :
    s.assertReset = { State.reset with pending := s.pending, observed := s.observed } := by
  rw [State.assertReset, clearHash_eq]
  rfl

end Sys2Proof.Machine
end

