-- ==== Sys2Proof/Laws/PerInstr.lean ====
section
/-! SUPPORT. Facts about every command as written, one lemma per constructor. -/

namespace Sys2Proof.Laws.CountField

/-- The CNT field of a command's word is the number of its data bytes (R45; format N has neither). -/
def Statement (i : Instr) : Prop := (cntField (encode i)).toNat = i.dataBytes.length

theorem cnt_packU (cnt : BitVec 2) (d2 d1 d0 : Byte) : cntField (packU cnt d2 d1 d0) = cnt := by
  revert cnt
  have h : ∀ k < 2, ∀ cnt : BitVec 2, (cntField (packU cnt d2 d1 d0)).getLsbD k = cnt.getLsbD k := by
    intro k hk cnt
    unfold cntField
    rw [BitVec.getLsbD_extractLsb', getLsbD_packU]
    have : k = 0 ∨ k = 1 := by omega
    rcases this with rfl | rfl <;> simp
  exact fun cnt => BitVec.eq_of_getLsbD_eq fun k hk => h k hk cnt

theorem nop : Statement .nop := by unfold Statement; decide
theorem reset : Statement .reset := by unfold Statement; decide
theorem upd0 : Statement .upd0 := by unfold Statement; decide
theorem upd1 (b0 : Byte) : Statement (.upd1 b0) := by
  unfold Statement encode; rw [cnt_packU]; rfl
theorem upd2 (b0 b1 : Byte) : Statement (.upd2 b0 b1) := by
  unfold Statement encode; rw [cnt_packU]; rfl
theorem upd3 (b0 b1 b2 : Byte) : Statement (.upd3 b0 b1 b2) := by
  unfold Statement encode; rw [cnt_packU]; rfl

end Sys2Proof.Laws.CountField
end

