-- ==== Sys2Proof/Laws/Step.lean ====
section
/-! SUPPORT. What one event and one step can do, said once, and the run of a list of events as a recursion on the list. -/

namespace Sys2Proof.Machine

/-- Each command's next state (R54, R55, R60). -/
def commandEffect : Instr → State → State
  | .nop, s => s
  | .reset, s => s.clearHash
  | .upd0, s => update [] s
  | .upd1 b0, s => update [b0] s
  | .upd2 b0 b1, s => update [b0, b1] s
  | .upd3 b0 b1 b2, s => update [b0, b1, b2] s

theorem exec_eq (i : Instr) (s : State) : exec i s = .next (commandEffect i s) := by
  cases i <;> rfl

/-- Each event's next state (R33, R53, R84). -/
def eventEffect : HostEvent → State → State
  | .command w, s =>
    match decode w with
    | .ok i => commandEffect i s
    | .error _ => illegalCommand w s
  | .read a, s => s.observe (readOut s a)
  | .resetInput _, s => s.assertReset

theorem acceptEvent_eq (e : HostEvent) (s : State) : acceptEvent e s = .next (eventEffect e s) := by
  cases e with
  | command w =>
    simp only [acceptEvent, acceptCommand, eventEffect]
    cases decode w with
    | ok i => exact exec_eq i s
    | error x => rfl
  | read a => rfl
  | resetInput d => rfl

theorem step_of_pending {s : State} {e : HostEvent} {rest : List HostEvent} (h : s.pending = e :: rest) :
    step s = .next (eventEffect e (s.withPending rest)) := by
  rw [step, h]
  exact acceptEvent_eq ..

theorem step_of_empty {s : State} (h : s.pending = []) : step s = .next s := by
  rw [step, h]
  rfl

@[simp] theorem withPending_self (s : State) : s.withPending s.pending = s := rfl

@[simp] theorem withPending_twice (s : State) (as bs : List HostEvent) :
    (s.withPending as).withPending bs = s.withPending bs := rfl

/-- Every command leaves the host's two lists and the error state alone. -/
theorem commandEffect_frame (i : Instr) (s : State) :
    (commandEffect i s).err = s.err ∧ (commandEffect i s).ecmd = s.ecmd ∧
      (commandEffect i s).pending = s.pending ∧ (commandEffect i s).observed = s.observed := by
  cases i with
  | nop => exact ⟨rfl, rfl, rfl, rfl⟩
  | reset => rw [commandEffect, clearHash_eq]; exact ⟨rfl, rfl, rfl, rfl⟩
  | upd0 => exact (update_fields [] s).2.2
  | upd1 b0 => exact (update_fields [b0] s).2.2
  | upd2 b0 b1 => exact (update_fields [b0, b1] s).2.2
  | upd3 b0 b1 b2 => exact (update_fields [b0, b1, b2] s).2.2

/-- No event touches the pending list: it is the step that takes the event off. -/
theorem eventEffect_pending (e : HostEvent) (s : State) : (eventEffect e s).pending = s.pending := by
  cases e with
  | command w =>
    simp only [eventEffect]
    split
    · exact (commandEffect_frame _ s).2.2.1
    · rfl
  | read a => rfl
  | resetInput d => simp only [eventEffect, assertReset_eq]

/-- A run with the first of its events taken (one step, then the rest). -/
theorem core_run_cons (n : Nat) {s : State} {e : HostEvent} {rest : List HostEvent} (h : s.pending = e :: rest) :
    Host.Core.run Sys2Proof.core (n + 1) s =
      Host.Core.run Sys2Proof.core n (eventEffect e (s.withPending rest)) := by
  simp only [Host.Core.run]
  rw [show Sys2Proof.core.step s = .next (eventEffect e (s.withPending rest)) from step_of_pending h]

/-- The state after a list of events whose later events are still pending. -/
def eventsEffect : List HostEvent → State → State
  | [], s => s
  | e :: es, s => eventsEffect es (eventEffect e (s.withPending (s.pending.drop 1)))

/-- A run of k steps over k pending events reaches a next state, event by event. -/
theorem core_run_eq (es rest : List HostEvent) :
    ∀ s : State, s.pending = es ++ rest →
      Host.Core.run Sys2Proof.core es.length s = .next (eventsEffect es s) := by
  induction es with
  | nil => exact fun _ _ => rfl
  | cons e es ih =>
    intro s h
    rw [List.length_cons, core_run_cons es.length (by simpa using h)]
    have hp : s.pending.drop 1 = es ++ rest := by rw [h]; rfl
    rw [ih _ (by rw [eventEffect_pending]; rfl), eventsEffect, hp]

theorem runOf_eq (es : List HostEvent) (s : State) : runOf es s = .next (eventsEffect es (s.withPending es)) :=
  core_run_eq es [] _ (by simp)

end Sys2Proof.Machine
end

