-- ==== Sys2Proof/Tests/Slice0.lean ====
section
/-! SUPPORT. The model's own tests: the operand checks, the decoder on words written out bit by bit, one step on the spec's
derived vectors (95_test_vectors.md), and a witness for the hypotheses of every statement that has some. -/

namespace Sys2Proof.Tests

open Sys2Proof Sys2Proof.Machine Sys2Proof.Claims

/-- A state with these registers, nothing pending and nothing observed. -/
def mk (w0 w1 w2 len : Reg) (rot : BitVec 8) (err : Bool) (ecmd : Word) : State :=
  ⟨w0, w1, w2, len, rot, err, ecmd, [], []⟩

/-- The state after one step on this command word. -/
def after (w : Nat) (s : State) : Option State :=
  match step (s.withFetchWord 32 w) with
  | .next t => some t
  | .fault _ => none
  | .refused _ => none

/-! ### Operand checks: an ill-formed operand for each (R50) -/

theorem test_byte_256_refused : byteOperandOk 256 = false := by decide
theorem test_byte_255_taken : byteOperandOk 255 = true := by decide
theorem test_four_operands_refused : updOperandsOk [1, 2, 3, 4] = false := by decide
theorem test_operand_300_refused : updOperandsOk [1, 300] = false := by decide
theorem test_raw_word_too_wide_refused : rawWordOk 0x100000000 = false := by decide

/-! ### Decoding: words from the formats of R44 and R45, bit by bit -/

theorem test_decode_nop : decode 0b00000000000000000000000000000000 = .ok .nop := by decide
theorem test_decode_reset : decode 0b00010000000000000000000000000000 = .ok .reset := by decide
theorem test_decode_upd0 : decode 0b00100000000000000000000000000000 = .ok .upd0 := by decide
theorem test_decode_upd1 : decode 0b00100001000000000000000001100001 = .ok (.upd1 0x61) := by decide
theorem test_decode_upd2 : decode 0b00100010000000000110001001100001 = .ok (.upd2 0x61 0x62) := by decide
theorem test_decode_upd3 : decode 0b00100011100000000000000011111111 = .ok (.upd3 0xFF 0x00 0x80) := by decide

theorem test_decode_reserved_op : decode 0x30000000 = .error .reservedOp := by decide
theorem test_decode_nop_bit : decode 0x00000001 = .error .nopReservedBits := by decide
theorem test_decode_reset_bit : decode 0x10000001 = .error .resetReservedBits := by decide
theorem test_decode_rsv : decode 0x24000000 = .error .updReservedField := by decide
theorem test_decode_cnt0_dat0 : decode 0x20000001 = .error .updUnusedData := by decide
theorem test_decode_cnt1_dat1 : decode 0x21000100 = .error .updUnusedData := by decide
theorem test_decode_cnt2_dat2 : decode 0x22010000 = .error .updUnusedData := by decide

/-- The table's numbering, and nothing wider than a word. -/
theorem test_table_word : decodeTableWord 32 0x21000061 = some (.upd1 0x61) ∧ decodeTableWord 40 0 = none := by decide

/-! ### One step on the vectors of 95_test_vectors.md -/

/-- V-N1. -/
theorem test_nop : after 0 (mk 0x61 0 0 1 11 false 0) = some (mk 0x61 0 0 1 11 false 0) := by decide
/-- V-R1. -/
theorem test_reset : after 0x10000000 (mk 0x61 0 0 1 11 true 0x30000000) = some (mk 0 0 0 0 0 true 0x30000000) := by decide
/-- V-U23. -/
theorem test_upd0 : after 0x20000000 (mk 0x61 0 0 1 11 false 0) = some (mk 0x61 0 0 1 11 false 0) := by decide
/-- V-U5. -/
theorem test_upd1_straddle_w0 : after 0x210000A5 (mk 0 0 0 5 57 false 0) =
    some (mk 0x4A00000000000000 1 0 6 68 false 0) := by decide
/-- V-U18: the mask of W2. -/
theorem test_upd1_straddle_w2 : after 0x210000FF (mk 0 0 0 5 159 false 0) =
    some (mk 0x7F 0 0x80000000 6 10 false 0) := by decide
/-- V-M2 in one word. -/
theorem test_upd2 : after 0x22006261 State.reset = some (mk 0x31061 0 0 2 22 false 0) := by decide
/-- V-U20. -/
theorem test_upd3 : after 0x2380C311 (mk 0 0 0 0 146 false 0) = some (mk 0x8018 0 0x60440000 3 19 false 0) := by decide
/-- V-U22: LEN and ROT wrap. -/
theorem test_upd3_wraps : after 0x23808080 (mk 0 0 0 0xFFFFFFFFFFFFFFFE 150 false 0) =
    some (mk 0x80100 0 0x20000000 1 23 false 0) := by decide
/-- V-E5. -/
theorem test_illegal_first : after 0x21000100 (mk 0x61 0 0 1 11 false 0) =
    some (mk 0x61 0 0 1 11 true 0x21000100) := by decide
/-- V-E10. -/
theorem test_illegal_second : after 0xFFFFFFFF (mk 0 0 0 0 0 true 0x30000000) =
    some (mk 0 0 0 0 0 true 0x30000000) := by decide
/-- V-F1. -/
theorem test_digest : digest (mk 0x0123456789ABCDEF 0xFEDCBA9876543210 0x89ABCDEF 0x1122334455667788 0 false 0) =
    [0xEF, 0xCD, 0xAB, 0x89, 0x67, 0x45, 0x23, 0x01, 0x10, 0x32, 0x54, 0x76, 0x10, 0xCD, 0xBA, 0xAB, 0xAB, 0xFE,
      0x89, 0x98] := by decide
/-- P3: the ECMD bytes and STATUS. -/
theorem test_readout_error : (readOut (mk 0 0 0 0 0 true 0x30000000) 0x3F, readOut (mk 0 0 0 0 0 true 0) 0x14) =
    (0x30, 0x01) := by decide
/-- R85: a command arriving with the reset input is discarded. -/
theorem test_reset_input : (match acceptEvent (.resetInput (some 0x21000061)) (mk 1 2 3 4 5 true 6) with
    | .next t => some t
    | .fault _ => none
    | .refused _ => none) = some State.reset := by decide

/-! ### Assembler lines (R50, R51) -/

theorem test_asm_comment : assembleLine [' ', 'u', 'p', 'd', ' ', '7', ';', 'x'] = some [0x21000007] := by decide
theorem test_asm_raw : assembleLine ['.', 'c', 'm', 'd', ' ', '0', 'x', 'F', '0', '0', '0', '0', '0', '0', '0'] =
    some [0xF0000000] := by decide
theorem test_asm_byte_256 : assembleLine ['u', 'p', 'd', ' ', '2', '5', '6'] = none := by decide
theorem test_asm_upper_case : assembleLine ['N', 'O', 'P'] = none := by decide
theorem test_asm_upds_escape : assembleLine ['u', 'p', 'd', 's', ' ', quoteChar, backslashChar, 'n', quoteChar] =
    some [0x2100000A] := by decide
theorem test_asm_upds_empty : assembleLine ['u', 'p', 'd', 's', ' ', quoteChar, quoteChar] = some [] := by decide

/-! ### Platform (R79, R37) -/

/-- A write to engine 1's command port reaches engine 1 only. -/
theorem test_access_routes :
    let p := Platform.access #v[⟨0, 64⟩, ⟨4, 128⟩] (.write 4 0) (Platform.reset 2)
    (p.engine 0).pending = [] ∧ (p.engine 1).pending = [.command 0] := by decide

/-! ### Witnesses: states and operands that meet each statement's hypotheses together -/

/-- A state at the last ring position, its W2 full, an error recorded. -/
def edge : State := mk 0 0 0xFFFFFFFF 7 159 true 0x30000000

theorem witness_ParametersAreConsistent :
    159 < 160 ∧ Config.SHIFT * 159 % Config.WIDTH = Config.SHIFT * 159 % Config.WIDTH := by decide
theorem witness_DecodeAndEncodeAgree : decode 0x230000FF = .ok (.upd3 0xFF 0 0) := by decide
theorem witness_LegalWordsMatchOneTableRow :
    decode 0x22000000 = .ok (.upd2 0 0) ∧ opcodeRows[5]? = some ⟨"upd", "U3", 0x23000000, 0xFF000000⟩ := by decide
theorem witness_UpdsExpansionFoldsItsBytes :
    ([1, 2, 3, 4, 5] : List Byte)[3 * 0]? = some 1 ∧ ([1, 2, 3, 4, 5] : List Byte)[3 * 0 + 1]? = some 2 ∧
      ([1, 2, 3, 4, 5] : List Byte)[3 * 0 + 2]? = some 3 ∧ ([1, 2, 3, 4, 5] : List Byte).length % 3 = 2 ∧
      ([1, 2, 3, 4, 5] : List Byte)[3]? = some 4 ∧ ([1, 2, 3, 4, 5] : List Byte)[4]? = some 5 ∧
      edge.rot.toNat < 160 := by decide
theorem witness_UpdsExpansionFoldsItsBytes_one_left :
    ([1, 2, 3, 4] : List Byte).length % 3 = 1 ∧ ([1, 2, 3, 4] : List Byte).getLast? = some 4 := by decide
theorem witness_StepRunsTheDecodedCommand :
    (edge.withPending [.command 0x10000000]).pending = .command 0x10000000 :: [] ∧ decode 0x10000000 = .ok .reset := by
  decide
theorem witness_StepRunsTheDecodedCommand_illegal :
    (edge.withPending [.command 0xF0000000]).pending = .command 0xF0000000 :: [] ∧
      decode 0xF0000000 = .error .reservedOp := by decide
theorem witness_RunsCompose : ∃ t, runOf [.command 0x210000FF] edge = .next t := ⟨_, rfl⟩
theorem witness_NothingPendingNothingChanges : edge.pending = [] := rfl
theorem witness_NopWritesNoRegister : (0x0FFFFFFF : Word).toNat / 2 ^ 28 = 0 ∧ (0x0FFFFFFF : Word) ≠ 0 := by decide
theorem witness_ResetClearsTheHashOnly :
    (0x18000000 : Word).toNat / 2 ^ 28 = 1 ∧ (0x18000000 : Word) ≠ 0x10000000 := by decide
theorem witness_ZeroLengthUpdateChangesNothing : edge.rot.toNat < 160 := by decide
theorem witness_UpdFoldsItsBytes : edge.rot.toNat < 160 ∧ edge.w2.extractLsb' 32 32 = 0 := by decide
theorem witness_FoldByteWritesItsCells : 31 < Config.CELL_W .c2 ∧ 63 < Config.CELL_W .c0 ∧ 56 < Config.CELL_W .c1 := by
  decide
theorem witness_AdvanceIsElevenModuloTheRing : 159 < 160 ∧ 63 < 160 ∧ 64 < 160 ∧ 127 < 160 ∧ 128 < 160 := by decide
theorem witness_StraddlePositionsAreTheTable : remOf 159 = 1 ∧ remOf 57 = 7 ∧ remOf 56 = 8 ∧ remOf 127 = 1 := by decide
theorem witness_RotIsTheRunningOffset : edge.rot.toNat < 160 := by decide
theorem witness_FoldIsARingRotation : 159 < 160 ∧ edge.w2.extractLsb' 32 32 = 0 ∧ HashZero State.reset := by decide
theorem witness_UpdateIsChunkInvariant : edge.rot.toNat < 160 := by decide
theorem messageWords_of_all {ws : List Word} (h : ws.all messageWord = true) : ∀ w ∈ ws, messageWord w = true :=
  List.all_eq_true.1 h
theorem witness_SplitOfAMessageIsInvisible :
    edge.rot.toNat < 160 ∧ (∀ w ∈ [0x22000201#32, 0, 0x21000003], messageWord w = true) ∧
      (∀ w ∈ [0x23030201#32], messageWord w = true) ∧
      dataOf [0x22000201, 0, 0x21000003] = dataOf [0x23030201] :=
  ⟨by decide, messageWords_of_all (by decide), messageWords_of_all (by decide), by decide⟩
theorem witness_BatchedUpdateEqualsNaive : edge.rot.toNat < 160 := by decide
theorem witness_CopiesAndPhasesOfAMessage_copies :
    HashZero State.reset ∧ OddParity 0x01 ∧ ¬ OddParity 0xA5 := by unfold OddParity; decide
theorem witness_CopiesAndPhasesOfAMessage_phases :
    HashZero State.reset ∧ ([7] : List Byte).length = ([7] : List Byte).length ∧
      ∀ i, i < 160 → phaseXor [7] i = phaseXor [7] i := ⟨by decide, rfl, fun _ _ => rfl⟩
theorem witness_CopiesAndPhasesOfAMessage_lengths :
    ring State.reset = ring (mk 0 0 0 1 0 false 0) ∧ State.reset.len ≠ (mk 0 0 0 1 0 false 0).len := by decide
theorem witness_DigestIsRingXorLength :
    ring edge = ring edge ∧ littleEndianInt (digest edge) = littleEndianInt (digest edge) := ⟨rfl, rfl⟩
theorem witness_DigestReadsReturnTheDigest : (0x13 : RoAddr).toNat < 20 := by decide
theorem witness_EmptyMessageDigestIsZero :
    messageOf [.command 0x21000061, .command 0x10000000, .command 0, .command 0x20000000] = [] := by decide
theorem witness_LengthXorCanCancel : HashZero State.reset ∧ (List.replicate 96 (0xFF : Byte)).length = 96 :=
  ⟨by decide, List.length_replicate⟩
theorem witness_IllegalCommandIsRecordedOnce :
    (edge.withPending [.command 0x2C000000]).pending = .command 0x2C000000 :: [] ∧ legal 0x2C000000 = false ∧
      ∀ e ∈ [HostEvent.command 0x10000000, .read 0x14], notReset e = true := by decide
theorem witness_ResetInputWins :
    (edge.withPending [.resetInput (some 0), .read 0]).pending = .resetInput (some 0) :: [.read 0] := rfl
theorem witness_StepKeepsTheRegisterInvariant :
    Inv (edge.withPending [.read 0x38]) ∧
      step (edge.withPending [.read 0x38]) = .next (edge.observe 159) := ⟨by decide, rfl⟩
theorem witness_OnlyNamedEventsWriteRegisters :
    edge.rot.toNat < 160 ∧ (edge.withPending [.command 0x20000000]).pending = .command 0x20000000 :: [] := by decide
theorem witness_EventsReachTheirMessageState : (messageOf [.command 0x220000FF]).length < 2 ^ 64 := by decide
/-- After 14 zero bytes and 0xFF the last fold straddled from W2 into W0 (R65: j = 14, q = 154). -/
theorem witness_StepExtendsTheMessageState :
    let s := (mk 3 0 0xFC000000 15 5 false 0).withPending [.command 0x210000FF]
    MessageState (List.replicate 14 0 ++ [0xFF]) s ∧ s.pending = .command 0x210000FF :: [] := by
  decide
theorem witness_EnginesAreIndependent : (0 : Fin 2) ≠ 1 := by decide
theorem witness_InterleavingsFoldTheMergedBytes :
    Interleaving ([[0x21000001], [0x21000002]].map commands) (commands [0x21000002, 0x21000001]) ∧
      edge.rot.toNat < 160 ∧ ∀ w ∈ [0x21000002#32, 0x21000001], messageWord w = true :=
  ⟨.pick (k := 1) (e := .command 0x21000002) (q := []) rfl
      (.pick (k := 0) (e := .command 0x21000001) (q := []) rfl (.done (by decide))), by decide, messageWords_of_all (by decide)⟩

end Sys2Proof.Tests
end

section
/-! The parameters of R6 fit together (R8). -/

namespace Sys2Proof

/-- R8: the rotation increment shares no factor with the ring width. -/
theorem shift_coprime_width : Nat.Coprime Config.SHIFT Config.WIDTH := by decide

/-- R8: multiplication by `SHIFT` can be cancelled modulo `WIDTH`, because the two are coprime; so two byte phases below
`WIDTH` that stand at the same bit position are the same phase. -/
theorem phase_eq_of_shift_mul_mod_eq {i j : Nat} (hi : i < Config.WIDTH) (hj : j < Config.WIDTH)
    (h : Config.SHIFT * i % Config.WIDTH = Config.SHIFT * j % Config.WIDTH) : i = j := by
  have hmod : i ≡ j [MOD Config.WIDTH] := Nat.ModEq.cancel_left_of_coprime shift_coprime_width.symm h
  exact hmod.eq_of_lt_of_lt hi hj

/-- Settles O1: the sums and products are arithmetic on the constants; the phases are distinct by coprimality. -/
theorem parametersAreConsistent : Obligations.ParametersAreConsistent := by
  unfold Obligations.ParametersAreConsistent
  refine ⟨rfl, rfl, rfl, rfl, shift_coprime_width, rfl, Nat.mul_mod_right _ _, ?_⟩
  intro i j hi hj h
  exact phase_eq_of_shift_mul_mod_eq hi hj h

end Sys2Proof
end

section
/-! The write mask and the read mask of W2 (R15). -/

namespace Sys2Proof.Machine

/-- The mask keeps no bit of the high half (R15). -/
theorem extractLsb'_high_and_maskReg32 (v : Reg) : (v &&& maskReg 32).extractLsb' 32 32 = 0 := by
  have hmask : (maskReg 32).extractLsb' 32 32 = 0#32 := by decide
  rw [BitVec.extractLsb'_and, hmask]
  exact BitVec.and_zero

/-- The mask keeps every bit of the low half (R15). -/
theorem extractLsb'_low_and_maskReg32 (v : Reg) : (v &&& maskReg 32).extractLsb' 0 32 = v.extractLsb' 0 32 := by
  have hmask : (maskReg 32).extractLsb' 0 32 = BitVec.allOnes 32 := by decide
  rw [BitVec.extractLsb'_and, hmask, BitVec.and_allOnes]

/-- Settles O44: a write to W2 and a read of it both go through the mask, which is read here by its two halves. -/
theorem highHalfOfW2IsHardwired : Obligations.HighHalfOfW2IsHardwired := by
  unfold Obligations.HighHalfOfW2IsHardwired
  refine ⟨fun s v => writeCell_c2_w2 s v, fun s => ?_, fun s v => ⟨writeCell_c0_w0 s v, writeCell_c1_w1 s v⟩⟩
  rw [readCell_c2]
  exact ⟨extractLsb'_high_and_maskReg32 s.w2, extractLsb'_low_and_maskReg32 s.w2⟩

end Sys2Proof.Machine
end

section
/-! The registers after the two resets (R25). -/

namespace Sys2Proof.Machine

/-- The RESET command's hashing registers are at the zero state (R55). -/
theorem hashZero_clearHash (s : State) : HashZero s.clearHash := by
  rw [clearHash_eq]
  exact ⟨rfl, rfl, rfl, rfl, rfl⟩

/-- So are the reset input's, which begins with the same clearing (R84). -/
theorem hashZero_assertReset (s : State) : HashZero s.assertReset := hashZero_clearHash s

/-- Settles O40: RESET clears the hashing registers only, the reset input the error state too. -/
theorem registersAfterReset : Obligations.RegistersAfterReset := by
  unfold Obligations.RegistersAfterReset
  refine ⟨⟨rfl, rfl, rfl, rfl, rfl, rfl, rfl⟩, fun s d => ?_, fun s => ?_⟩
  · exact ⟨s.assertReset, rfl, hashZero_assertReset s, clearError_err _, clearError_ecmd _⟩
  · obtain ⟨herr, hecmd, -, -⟩ := commandEffect_frame .reset s
    exact ⟨s.clearHash, exec_eq .reset s, hashZero_clearHash s, herr, hecmd⟩

end Sys2Proof.Machine
end

section
/-! What a list of events brings about, as a fold over the list (R38). -/

namespace Sys2Proof.Machine

/-- A relation between a summary of the events so far and the state holds after a list of events if every event keeps
it and it does not speak of the pending list. -/
theorem eventsEffect_foldl {α : Type} {P : α → State → Prop} {f : α → HostEvent → α}
    (hpending : ∀ a s rest, P a s → P a (s.withPending rest))
    (hevent : ∀ a e s, P a s → P (f a e) (eventEffect e s)) (es : List HostEvent) :
    ∀ a s, P a s → P (es.foldl f a) (eventsEffect es s) := by
  induction es with
  | nil => exact fun _ _ h => h
  | cons e es ih => exact fun a s h => ih _ _ (hevent a e _ (hpending a s _ h))

/-- A run that begins with the reset input is the later events' run from the reset registers. -/
theorem runOf_resetInput (s : State) (d : Option Word) (es : List HostEvent) :
    runOf (.resetInput d :: es) s = .next (eventsEffect es (s.withPending es).assertReset) :=
  runOf_eq _ s

end Sys2Proof.Machine
end

section
/-! The error state is the first illegal word since the last reset input (R21, R22). -/

namespace Sys2Proof.Machine

/-- ERR and ECMD record `f`, the first illegal word so far if there is one (R21, R22). -/
structure ErrorRecords (f : Option Word) (s : State) : Prop where
  err : s.err = f.isSome
  ecmd : s.ecmd = f.getD 0

theorem errorRecords_assertReset (s : State) : ErrorRecords none s.assertReset :=
  ⟨clearError_err _, clearError_ecmd _⟩

/-- An illegal word is recorded exactly when none was before it (R73). -/
theorem errorRecords_illegalCommand {f : Option Word} {s : State} (h : ErrorRecords f s) (w : Word) :
    ErrorRecords (f.or (some w)) (illegalCommand w s) := by
  have hecmd : (illegalCommand w s).ecmd = if f.isSome then f.getD 0 else w := by
    rw [illegalCommand, latchError_ecmd, h.err, h.ecmd]
  cases f with
  | none => exact ⟨rfl, hecmd⟩
  | some v => exact ⟨rfl, hecmd⟩

/-- Each event keeps the record, as it extends the first illegal word. -/
theorem errorRecords_eventEffect (f : Option Word) (e : HostEvent) (s : State) (h : ErrorRecords f s) :
    ErrorRecords (extendFirstIllegal f e) (eventEffect e s) := by
  cases e with
  | command w =>
    cases hw : decode w with
    | ok i =>
      obtain ⟨herr, hecmd, -, -⟩ := commandEffect_frame i s
      simp only [extendFirstIllegal, eventEffect, legal, hw]
      exact ⟨herr.trans h.err, hecmd.trans h.ecmd⟩
    | error x =>
      simp only [extendFirstIllegal, eventEffect, legal, hw]
      exact errorRecords_illegalCommand h w
  | read a => exact ⟨h.err, h.ecmd⟩
  | resetInput d => exact errorRecords_assertReset s

theorem errorRecords_eventsEffect (es : List HostEvent) (f : Option Word) (s : State) (h : ErrorRecords f s) :
    ErrorRecords (es.foldl extendFirstIllegal f) (eventsEffect es s) :=
  eventsEffect_foldl (fun _ _ _ h => ⟨h.err, h.ecmd⟩) errorRecords_eventEffect es f s h

/-- Bit 0 of the readout byte STATUS is ERR (R31). -/
theorem readOut_status_bit_zero (s : State) : (readOut s 0x14).getLsbD 0 = s.err := by
  have hstatus : readOut s 0x14 = statusByte s := rfl
  rw [hstatus, statusByte]
  cases s.err <;> rfl

/-- Settles O38: the reset input begins an empty record, and the record is kept along the events. -/
theorem errorStateIsTheFirstIllegalWord : Obligations.ErrorStateIsTheFirstIllegalWord := by
  unfold Obligations.ErrorStateIsTheFirstIllegalWord
  intro s d es
  obtain ⟨herr, hecmd⟩ := errorRecords_eventsEffect es none _ (errorRecords_assertReset (s.withPending es))
  exact ⟨_, runOf_resetInput s d es, herr, hecmd, (readOut_status_bit_zero _).trans herr⟩

end Sys2Proof.Machine
end

section
/-! The readout map, one equation per field (R29..R33). -/

namespace Sys2Proof.Machine

/-- A readout address written as a number is that number: there are 64 addresses (R30). -/
theorem toNat_roAddr {n : Nat} (h : n < 64) : (BitVec.ofNat 6 n : RoAddr).toNat = n := by
  rw [BitVec.toNat_ofNat, Nat.mod_eq_of_lt h]

theorem length_digest (s : State) : (digest s).length = Config.DIGEST_BYTES := by
  simp [digest, xorLength, serializeCells, le8]

/-- A byte of W2 as it is read: the low four are W2's own, the others are masked away (R15). -/
theorem regByte_and_maskReg32 (v : Reg) {k : Nat} (hk : k < 8) :
    regByte (v &&& maskReg 32) k = if k < 4 then regByte v k else 0 := by
  have hmask : ∀ j < 8, regByte (maskReg 32) j = if j < 4 then BitVec.allOnes 8 else 0 := by decide
  have hand : regByte (v &&& maskReg 32) k = regByte v k &&& regByte (maskReg 32) k := BitVec.extractLsb'_and
  rw [hand, hmask k hk]
  split
  · exact BitVec.and_allOnes
  · exact BitVec.and_zero

section
variable (s : State) {a : RoAddr} {k : Nat}

/-- The digest's own addresses hold the digest (R29). -/
theorem getElem?_digest_eq_readOut (ha : a.toNat < 20) : (digest s)[a.toNat]? = some (readOut s a) := by
  have hread : readOut s a = (digest s).getD a.toNat 0 := if_pos (by omega)
  have hlt : a.toNat < (digest s).length := by rw [length_digest]; exact ha
  rw [hread, List.getD_eq_getElem _ _ hlt, List.getElem?_eq_getElem hlt]

theorem readOut_status : readOut s 0x14 = statusByte s := rfl

theorem readOut_reserved_low (ha : a.toNat = 0x15 + k) (hk : k < 3) : readOut s a = 0 := by
  simp (disch := omega) only [readOut, ha, if_pos, if_neg]

theorem readOut_len (ha : a.toNat = 0x18 + k) (hk : k < 8) : readOut s a = regByte s.len k := by
  simp (disch := omega) only [readOut, ha, if_pos, if_neg, Nat.add_sub_cancel_left]

theorem readOut_c0 (ha : a.toNat = 0x20 + k) (hk : k < 8) : readOut s a = regByte (s.readCell .c0) k := by
  simp (disch := omega) only [readOut, ha, if_pos, if_neg, Nat.add_sub_cancel_left]

theorem readOut_c1 (ha : a.toNat = 0x28 + k) (hk : k < 8) : readOut s a = regByte (s.readCell .c1) k := by
  simp (disch := omega) only [readOut, ha, if_pos, if_neg, Nat.add_sub_cancel_left]

theorem readOut_c2 (ha : a.toNat = 0x30 + k) (hk : k < 8) : readOut s a = regByte (s.readCell .c2) k := by
  simp (disch := omega) only [readOut, ha, if_pos, if_neg, Nat.add_sub_cancel_left]

theorem readOut_rot : readOut s 0x38 = s.rot := rfl

theorem readOut_reserved_high (ha : a.toNat = 0x39 + k) (hk : k < 3) : readOut s a = 0 := by
  simp (disch := omega) only [readOut, ha, if_pos, if_neg]

theorem readOut_ecmd (ha : a.toNat = 0x3C + k) : readOut s a = wordByte s.ecmd k := by
  simp (disch := omega) only [readOut, ha, if_neg, Nat.add_sub_cancel_left]

end

/-- Settles O32: each clause is the equation of its field; W2's bytes go through the read mask. -/
theorem readoutMapFields : Obligations.ReadoutMapFields := by
  unfold Obligations.ReadoutMapFields
  intro s
  refine ⟨readOut_status s, fun k hk => ?digest, fun k hk => ⟨?reservedLow, ?reservedHigh⟩,
    fun k hk => ⟨?len, ?w0, ?w1, ?w2⟩, readOut_rot s, fun k hk => ?ecmd⟩
  case digest =>
    have ha : (BitVec.ofNat 6 k : RoAddr).toNat = k := toNat_roAddr (by omega)
    have hdigest := getElem?_digest_eq_readOut s (a := BitVec.ofNat 6 k) (by omega)
    rwa [ha] at hdigest
  case reservedLow => exact readOut_reserved_low s (toNat_roAddr (by omega)) hk
  case reservedHigh => exact readOut_reserved_high s (toNat_roAddr (by omega)) hk
  case len => exact readOut_len s (toNat_roAddr (by omega)) hk
  case w0 => exact readOut_c0 s (toNat_roAddr (by omega)) hk
  case w1 => exact readOut_c1 s (toNat_roAddr (by omega)) hk
  case w2 =>
    rw [readOut_c2 s (toNat_roAddr (by omega)) hk, readCell_c2]
    exact regByte_and_maskReg32 s.w2 hk
  case ecmd => exact readOut_ecmd s (toNat_roAddr (by omega))

end Sys2Proof.Machine
end

section
/-! Reads record what they return and write no register (R34). -/

namespace Sys2Proof.Machine

/-- What reads return depends on neither of the host's two lists. -/
@[simp] theorem readOut_withPending (s : State) (es : List HostEvent) : readOut (s.withPending es) = readOut s := rfl

@[simp] theorem readOut_observe (s : State) (b : Byte) : readOut (s.observe b) = readOut s := rfl

/-- Reads that stand before any other pending events leave those events pending, record what the state before all of
the reads returns, and change nothing else. -/
theorem eventsEffect_reads (as : List RoAddr) (rest : List HostEvent) :
    ∀ s : State, s.pending = as.map .read ++ rest →
      eventsEffect (as.map .read) s =
        { s with pending := rest, observed := s.observed ++ as.map (readOut s) } := by
  induction as with
  | nil =>
    intro s hpending
    rw [List.map_nil, List.nil_append] at hpending
    simp [eventsEffect, ← hpending]
  | cons a as ih =>
    intro s hpending
    have hdrop : s.pending.drop 1 = as.map .read ++ rest := by rw [hpending]; rfl
    have hread : ∀ t : State, eventEffect (.read a) t = t.observe (readOut t a) := fun _ => rfl
    rw [List.map_cons, eventsEffect, hdrop, hread, ih _ (observe_pending ..)]
    simp

/-- Settles O33: every event of the run is a read, so nothing is left pending. -/
theorem readsArePure : Obligations.ReadsArePure := by
  unfold Obligations.ReadsArePure
  intro s as
  rw [runOf_eq, eventsEffect_reads as [] _ (by simp)]
  rfl

end Sys2Proof.Machine
end

section
/-! The six written forms of a command word (R44, R45, R47) and the decoder's inverse of them (R48). -/

namespace Sys2Proof

/-! ### The fields of a word as digits of its number (R43) -/

section
variable (w : Word)

theorem toNat_opField : (opField w).toNat = w.toNat / 2 ^ 28 := by
  rw [opField, BitVec.extractLsb'_toNat, Nat.shiftRight_eq_div_pow]
  omega

theorem toNat_lowField : (lowField w).toNat = w.toNat % 2 ^ 28 := BitVec.extractLsb'_toNat ..

theorem toNat_rsvField : (rsvField w).toNat = w.toNat / 2 ^ 26 % 2 ^ 2 := by
  rw [rsvField, BitVec.extractLsb'_toNat, Nat.shiftRight_eq_div_pow]

theorem toNat_cntField : (cntField w).toNat = w.toNat / 2 ^ 24 % 2 ^ 2 := by
  rw [cntField, BitVec.extractLsb'_toNat, Nat.shiftRight_eq_div_pow]

theorem toNat_dat0Field : (dat0Field w).toNat = w.toNat % 2 ^ 8 := BitVec.extractLsb'_toNat ..

theorem toNat_dat1Field : (dat1Field w).toNat = w.toNat / 2 ^ 8 % 2 ^ 8 := by
  rw [dat1Field, BitVec.extractLsb'_toNat, Nat.shiftRight_eq_div_pow]

theorem toNat_dat2Field : (dat2Field w).toNat = w.toNat / 2 ^ 16 % 2 ^ 8 := by
  rw [dat2Field, BitVec.extractLsb'_toNat, Nat.shiftRight_eq_div_pow]

end

/-! ### The two formats as numbers, and as conditions on the fields (R44, R45) -/

theorem toNat_packN (op : BitVec 4) : (packN op).toNat = op.toNat * 2 ^ 28 := by
  rw [packN, BitVec.toNat_append, Nat.shiftLeft_eq]
  exact Nat.or_zero _

theorem toNat_packU (cnt : BitVec 2) (d2 d1 d0 : Byte) :
    (packU cnt d2 d1 d0).toNat =
      0x20000000 + cnt.toNat * 2 ^ 24 + d2.toNat * 2 ^ 16 + d1.toNat * 2 ^ 8 + d0.toNat := by
  have hhead : (2 : BitVec 4) ++ (0 : BitVec 2) = 8#6 := by decide
  simp only [packU, hhead, BitVec.toNat_append]
  rw [← Nat.shiftLeft_add_eq_or_of_lt d0.isLt, ← Nat.shiftLeft_add_eq_or_of_lt d1.isLt,
    ← Nat.shiftLeft_add_eq_or_of_lt d2.isLt, ← Nat.shiftLeft_add_eq_or_of_lt cnt.isLt]
  simp only [Nat.shiftLeft_eq, BitVec.toNat_ofNat]
  omega

/-- A word of format U is told by its number (R45). -/
theorem eq_packU_iff_toNat (w : Word) (cnt : BitVec 2) (d2 d1 d0 : Byte) :
    w = packU cnt d2 d1 d0 ↔
      w.toNat = 0x20000000 + cnt.toNat * 2 ^ 24 + d2.toNat * 2 ^ 16 + d1.toNat * 2 ^ 8 + d0.toNat := by
  rw [BitVec.toNat_eq, toNat_packU]

/-- A word of format N is told by its two fields (R44). -/
theorem eq_packN_iff (w : Word) (op : BitVec 4) : w = packN op ↔ opField w = op ∧ lowField w = 0 := by
  simp only [BitVec.toNat_eq, toNat_packN, toNat_opField, toNat_lowField, BitVec.ofNat_eq_ofNat, BitVec.toNat_ofNat]
  omega

/-- A word of format U is told by its six fields (R45). -/
theorem eq_packU_iff (w : Word) (cnt : BitVec 2) (d2 d1 d0 : Byte) :
    w = packU cnt d2 d1 d0 ↔ opField w = 2 ∧ rsvField w = 0 ∧ cntField w = cnt ∧
      dat2Field w = d2 ∧ dat1Field w = d1 ∧ dat0Field w = d0 := by
  rw [eq_packU_iff_toNat]
  simp only [BitVec.toNat_eq, toNat_opField, toNat_rsvField, toNat_cntField, toNat_dat2Field, toNat_dat1Field,
    toNat_dat0Field, BitVec.ofNat_eq_ofNat, BitVec.toNat_ofNat]
  omega

/-! ### The decoder inverts the encoder (R48) -/

/-- The word of the command that `decodeUpd` answers, CNT by CNT: the data bytes below CNT are the command's and the
others are checked to be 0, so every field of `w` is known (R45, R47). -/
theorem eq_encode_of_decodeUpd {w : Word} {i : Instr} (hop : opField w = 2) (hrsv : rsvField w = 0)
    (h : decodeUpd w = .ok i) : w = encode i := by
  have hword : ∀ {cnt d2 d1 d0}, (cntField w).toNat = cnt.toNat → dat2Field w = d2 → dat1Field w = d1 →
      dat0Field w = d0 → w = packU cnt d2 d1 d0 :=
    fun hcnt h2 h1 h0 => (eq_packU_iff ..).2 ⟨hop, hrsv, BitVec.eq_of_toNat_eq hcnt, h2, h1, h0⟩
  unfold decodeUpd at h
  split at h
  case h_1 hcnt =>
    split at h <;> cases h
    next hunused =>
      obtain ⟨h0, h1, h2⟩ := hunused
      exact hword hcnt h2 h1 h0
  case h_2 hcnt =>
    split at h <;> cases h
    next hunused =>
      obtain ⟨h1, h2⟩ := hunused
      exact hword hcnt h2 h1 rfl
  case h_3 hcnt =>
    split at h <;> cases h
    next h2 => exact hword hcnt h2 rfl rfl
  case h_4 hne0 hne1 hne2 =>
    cases h
    have hne : (cntField w).toNat ≠ 0 ∧ (cntField w).toNat ≠ 1 ∧ (cntField w).toNat ≠ 2 := ⟨hne0, hne1, hne2⟩
    have hcnt : (cntField w).toNat = 3 := by
      have hlt := (cntField w).isLt
      omega
    exact hword hcnt rfl rfl rfl

/-- A word that decodes to a command is the command's word (R48). -/
theorem eq_encode_of_decode {w : Word} {i : Instr} (h : decode w = .ok i) : w = encode i := by
  unfold decode at h
  split_ifs at h with hop0 hlow hop1 hlow hop2 hrsv
  · cases h
    exact (eq_packN_iff w 0).2 ⟨hop0, hlow⟩
  · cases h
    exact (eq_packN_iff w 1).2 ⟨hop1, hlow⟩
  · exact eq_encode_of_decodeUpd hop2 hrsv h

/-- Every command's word decodes to the command (R48). -/
theorem decode_encode (i : Instr) : decode (encode i) = .ok i := by
  have hfields := fun cnt d2 d1 d0 => (eq_packU_iff _ cnt d2 d1 d0).1 rfl
  cases i with
  | nop => decide
  | reset => decide
  | upd0 => decide
  | upd1 b0 => simp [encode, decode, decodeUpd, hfields]
  | upd2 b0 b1 => simp [encode, decode, decodeUpd, hfields]
  | upd3 b0 b1 b2 => simp [encode, decode, decodeUpd, hfields]

/-- The decoder answers a command on exactly one word, the one that the encoder writes (R48). -/
theorem decode_eq_ok_iff (w : Word) (i : Instr) : decode w = .ok i ↔ w = encode i :=
  ⟨eq_encode_of_decode, fun h => h ▸ decode_encode i⟩

/-- Settles O5: each command is decoded from its one word, and the word's number is that of its format. -/
theorem decodedWordsHaveTheirWrittenForm : Obligations.DecodedWordsHaveTheirWrittenForm := by
  unfold Obligations.DecodedWordsHaveTheirWrittenForm
  intro w
  simp only [decode_eq_ok_iff]
  refine ⟨Iff.rfl, Iff.rfl, Iff.rfl, fun b0 => ?upd1, fun b0 b1 => ?upd2, fun b0 b1 b2 => ?upd3⟩
  case upd1 => simp [encode, eq_packU_iff_toNat]
  case upd2 => simp [encode, eq_packU_iff_toNat]
  case upd3 => simp [encode, eq_packU_iff_toNat]

end Sys2Proof
end

section
/-! The worked lines of the assembler's notation (R52). -/

namespace Sys2Proof.Machine

/-- Settles O3: every line and every word is written out, so the model computes each answer. -/
theorem workedLinesAssemble : Obligations.WorkedLinesAssemble := by
  unfold Obligations.WorkedLinesAssemble
  decide

end Sys2Proof.Machine
end

section
/-! The step of a pending command word (R53). -/

namespace Sys2Proof.Machine

theorem eventEffect_command_of_ok {w : Word} {i : Instr} (h : decode w = .ok i) (s : State) :
    eventEffect (.command w) s = commandEffect i s := by
  rw [eventEffect, h]

theorem eventEffect_command_of_error {w : Word} {x : Illegal} (h : decode w = .error x) (s : State) :
    eventEffect (.command w) s = illegalCommand w s := by
  rw [eventEffect, h]

/-- No state stops the engine (R53). -/
theorem step_completes (s : State) : ∃ t, step s = .next t := by
  cases h : s.pending with
  | nil => exact ⟨s, step_of_empty h⟩
  | cons e rest => exact ⟨_, step_of_pending h⟩

/-- Settles O10: the step has the effect of the pending word, which is read off the decoder's answer. -/
theorem stepRunsTheDecodedCommand : Obligations.StepRunsTheDecodedCommand := by
  unfold Obligations.StepRunsTheDecodedCommand
  refine ⟨fun s w rest i hp hw => ?ok, fun s w rest x hp hw => ?error, step_completes⟩
  case ok =>
    rw [step_of_pending hp, eventEffect_command_of_ok hw, exec_eq]
    rfl
  case error =>
    rw [step_of_pending hp, eventEffect_command_of_error hw]
    rfl

end Sys2Proof.Machine
end

section
/-! The two commands of format N, NOP and RESET (R54, R55, R56). -/

namespace Sys2Proof.Machine

/-- An opcode of format N has one legal word: with any bit of 27:0 set the word is illegal (R47). -/
theorem legal_eq_false_of_ne_packN {w : Word} {op : BitVec 4} (hop : op = 0 ∨ op = 1)
    (hw : w.toNat / 2 ^ 28 = op.toNat) (hne : w ≠ packN op) : legal w = false := by
  have hfield : opField w = op := BitVec.eq_of_toNat_eq ((toNat_opField w).trans hw)
  have hlow : lowField w ≠ 0 := fun h => hne ((eq_packN_iff w op).2 ⟨hfield, h⟩)
  obtain rfl | rfl := hop
  · rw [legal, decode, if_pos hfield, if_neg hlow]
  · rw [legal, decode, if_neg (by rw [hfield]; decide), if_pos hfield, if_neg hlow]

/-- Settles O14: NOP's effect is the identity, its word is `packN 0`, and no other word has its opcode. -/
theorem nopWritesNoRegister : Obligations.NopWritesNoRegister := by
  unfold Obligations.NopWritesNoRegister
  exact ⟨exec_eq .nop, fun w => decode_eq_ok_iff w .nop, fun w => legal_eq_false_of_ne_packN (.inl rfl)⟩

theorem sameHash_of_hashZero {s t : State} (hs : HashZero s) (ht : HashZero t) : SameHash s t := by
  obtain ⟨hs0, hs1, hs2, hslen, hsrot⟩ := hs
  obtain ⟨ht0, ht1, ht2, htlen, htrot⟩ := ht
  exact ⟨hs0.trans ht0.symm, hs1.trans ht1.symm, hs2.trans ht2.symm, hslen.trans htlen.symm, hsrot.trans htrot.symm⟩

theorem hashZero_reset : HashZero State.reset := ⟨rfl, rfl, rfl, rfl, rfl⟩

/-- The digest reads no register but the hashing ones (R67). -/
theorem digest_eq_of_sameHash {s t : State} (h : SameHash s t) : digest s = digest t := by
  obtain ⟨h0, h1, h2, hlen, -⟩ := h
  simp only [digest, serializeCells, readCell_c0, readCell_c1, readCell_c2, h0, h1, h2, hlen]

/-- R71: the digest of the zero state, here evaluated at the reset state. -/
theorem digest_of_hashZero {s : State} (h : HashZero s) : digest s = List.replicate 20 0 := by
  have hreset : digest State.reset = List.replicate 20 0 := by decide
  rw [digest_eq_of_sameHash (sameHash_of_hashZero h hashZero_reset), hreset]

/-- Settles O15: RESET's effect is `clearHash`, whose digest is the zero state's; its only word is `packN 1`. -/
theorem resetClearsTheHashOnly : Obligations.ResetClearsTheHashOnly := by
  unfold Obligations.ResetClearsTheHashOnly
  refine ⟨fun s => ?_, fun w => decode_eq_ok_iff w .reset, fun w => legal_eq_false_of_ne_packN (.inr rfl)⟩
  exact ⟨s.clearHash, exec_eq .reset s, clearHash_eq s, digest_of_hashZero (hashZero_clearHash s)⟩

/-- A run of one legal word has the effect of its command. -/
theorem runOf_command_of_ok {w : Word} {i : Instr} (h : decode w = .ok i) (s : State) :
    runOf [.command w] s = .next (commandEffect i (s.withPending [])) := by
  rw [runOf_eq, ← eventEffect_command_of_ok h]
  rfl

/-- Settles O41: both resets reach the zero state; the command keeps the error state, the reset input clears it. -/
theorem resetCommandAndInputAgreeOnTheHash : Obligations.ResetCommandAndInputAgreeOnTheHash := by
  unfold Obligations.ResetCommandAndInputAgreeOnTheHash
  intro s d
  have hword : decode 0x10000000 = .ok .reset := decode_encode .reset
  have hcommand : HashZero (s.withPending []).clearHash := hashZero_clearHash _
  have hinput : HashZero (s.withPending []).assertReset := hashZero_assertReset _
  obtain ⟨herr, hecmd, -, -⟩ := commandEffect_frame .reset (s.withPending [])
  exact ⟨_, _, runOf_command_of_ok hword s, runOf_resetInput s d [], sameHash_of_hashZero hcommand hinput, hcommand,
    herr, hecmd, clearError_err _, clearError_ecmd _, rfl, rfl⟩

end Sys2Proof.Machine
end

section
/-! The byte loop's positions: where a ring bit stands, and how the offset moves (R57, R59, R61, R65). -/

namespace Sys2Proof.Machine

/-! ### Cell and offset of a ring position (R57) -/

/-- A position below the ring width is its cell's first ring bit and an offset inside that cell (R57). -/
theorem cellOf_split {q : Nat} (hq : q < 160) :
    (cellOf q).2 < Config.CELL_W (cellOf q).1 ∧ Config.CELL_BASE (cellOf q).1 + (cellOf q).2 = q := by
  unfold cellOf
  split_ifs <;> simp only [Config.CELL_W, Config.CELL_BASE] <;> omega

/-- The cell and the offset can be read back from the position they make. -/
theorem cellOf_base_add {c : Cell} {off : Nat} (hoff : off < Config.CELL_W c) :
    cellOf (Config.CELL_BASE c + off) = (c, off) := by
  cases c <;> simp only [Config.CELL_W] at hoff <;> simp [cellOf] <;> omega

theorem remOf_base_add {c : Cell} {off : Nat} (hoff : off < Config.CELL_W c) :
    remOf (Config.CELL_BASE c + off) = Config.CELL_W c - off := by
  rw [remOf, cellOf_base_add hoff]

/-- The bits that remain, cell by cell. -/
theorem remOf_eq {q : Nat} (hq : q < 160) :
    remOf q = if q < 64 then 64 - q else if q < 128 then 128 - q else 160 - q := by
  unfold remOf cellOf
  split_ifs <;> simp only [Config.CELL_W] <;> omega

/-! ### Advance (R59) -/

theorem wrapOffset_of_lt {c : Cell} {off : Nat} (h : off < Config.CELL_W c) (fuel : Nat) :
    wrapOffset fuel (c, off) = (c, off) := by
  cases fuel with
  | zero => rfl
  | succ fuel => rw [wrapOffset, if_neg (Nat.not_le.2 h)]

/-- Every cell is wider than the shift, so the loop of Advance turns at most once (R59). -/
theorem advance_eq {c : Cell} {off : Nat} (hoff : off < Config.CELL_W c) :
    advance (c, off) =
      if Config.CELL_W c ≤ off + 11 then (nextCell c, off + 11 - Config.CELL_W c) else (c, off + 11) := by
  have hnext : off + 11 - Config.CELL_W c < Config.CELL_W (nextCell c) := by
    cases c <;> simp only [Config.CELL_W, nextCell] at hoff ⊢ <;> omega
  show wrapOffset (off + 11) (c, off + 11) = _
  split
  case isTrue hwrap => rw [wrapOffset, if_pos hwrap, wrapOffset_of_lt hnext]
  case isFalse hstay => exact wrapOffset_of_lt (Nat.not_le.1 hstay) _

/-- Advance is 11 ring bits forward, modulo the ring (R59). -/
theorem advance_base_add {c : Cell} {off : Nat} (hoff : off < Config.CELL_W c) :
    advance (c, off) = cellOf ((Config.CELL_BASE c + off + 11) % 160) := by
  rw [advance_eq hoff]
  split
  case isTrue hwrap =>
    rw [← cellOf_base_add (c := nextCell c)]
    · cases c <;> simp only [Config.CELL_W, Config.CELL_BASE, nextCell] at hoff hwrap ⊢ <;> congr 1 <;> omega
    · cases c <;> simp only [Config.CELL_W, nextCell] at hoff ⊢ <;> omega
  case isFalse hstay =>
    rw [← cellOf_base_add (Nat.not_le.1 hstay)]
    cases c <;> simp only [Config.CELL_W, Config.CELL_BASE] at hstay ⊢ <;> congr 1 <;> omega

/-- Settles O20: the lookup's split is undone by the lookup, and Advance moves the position it makes by 11. -/
theorem advanceIsElevenModuloTheRing : Obligations.AdvanceIsElevenModuloTheRing := by
  unfold Obligations.AdvanceIsElevenModuloTheRing
  intro q hq
  obtain ⟨hoff, hbase⟩ := cellOf_split hq
  have hadvance := advance_base_add hoff
  rw [hbase] at hadvance
  exact ⟨hoff, hbase, hadvance⟩

/-! ### The running offset (R61) -/

/-- R61: n single advances are the chunk formula. -/
theorem runningOffset_eq (n : Nat) : ∀ {q : Nat}, q < 160 → runningOffset q n = (q + 11 * (n % 160)) % 160 := by
  induction n with
  | zero => exact fun hq => (Nat.mod_eq_of_lt hq).symm
  | succ n ih =>
    intro q hq
    rw [runningOffset, ih (nextOffset_lt q)]
    simp only [nextOffset, Config.SHIFT, Config.WIDTH]
    omega

/-- The chunk formula's ROT fits its 8 bits (R60). -/
theorem update_rot_toNat (bs : List Byte) (s : State) :
    (update bs s).rot.toNat = (s.rot.toNat + 11 * (bs.length % 160)) % 160 := by
  obtain ⟨-, hrot, -⟩ := update_fields bs s
  rw [hrot, BitVec.toNat_ofNat]
  omega

/-- Settles O22: the formula is proved by induction on the bytes, and ROT holds the formula. -/
theorem rotIsTheRunningOffset : Obligations.RotIsTheRunningOffset := by
  unfold Obligations.RotIsTheRunningOffset
  refine ⟨fun q n hq => runningOffset_eq n hq, fun bs s hrot => ?_⟩
  rw [update_rot_toNat, runningOffset_eq _ hrot]

/-! ### The straddling positions (R65) -/

theorem remOf_lt_eight_iff {q : Nat} (hq : q < 160) :
    remOf q < 8 ↔ (57 ≤ q ∧ q ≤ 63) ∨ (121 ≤ q ∧ q ≤ 127) ∨ (153 ≤ q ∧ q ≤ 159) := by
  rw [remOf_eq hq]
  split_ifs <;> omega

theorem remOf_eq_eight_iff {q : Nat} (hq : q < 160) : remOf q = 8 ↔ q = 56 ∨ q = 120 ∨ q = 152 := by
  rw [remOf_eq hq]
  split_ifs <;> omega

/-- The table's byte indices are the ones that straddle, evaluated for ten blocks of sixteen indices. -/
theorem phase_straddles_iff_mem_table {j : Nat} (hj : j < 160) :
    remOf (11 * j % 160) < 8 ↔ j ∈ Claims.straddleTable.map (·.1) := by
  have hblocks : ∀ a < 10, ∀ b < 16,
      (remOf (11 * (16 * a + b) % 160) < 8 ↔ 16 * a + b ∈ Claims.straddleTable.map (·.1)) := by decide
  have hblock := hblocks (j / 16) (by omega) (j % 16) (Nat.mod_lt _ (by decide))
  rwa [Nat.div_add_mod] at hblock

/-- 131 is the inverse of 11 modulo 160, so the byte at index 131 q folds at position q. -/
theorem exists_phase_of_position {q : Nat} (hq : q < 160) : ∃ j, j < 160 ∧ 11 * j % 160 = q :=
  ⟨131 * q % 160, Nat.mod_lt _ (by decide), by omega⟩

/-- Settles O21: the ranges by the remaining bits, the table by its rows and by the byte indices that straddle. -/
theorem straddlePositionsAreTheTable : Obligations.StraddlePositionsAreTheTable := by
  unfold Obligations.StraddlePositionsAreTheTable
  refine ⟨fun q => remOf_lt_eight_iff, fun q => remOf_eq_eight_iff, ?rows,
    fun j => phase_straddles_iff_mem_table, ⟨rfl, rfl, rfl⟩, ?period, fun q => exists_phase_of_position⟩
  case rows => decide
  case period => intro j; omega

end Sys2Proof.Machine
end

section
/-! The byte fold as XORs into one or two cells, and the algebra of these XORs (R58). -/

namespace Sys2Proof.Machine

/-! ### The effective mask of a cell (R9, R15) -/

theorem getLsbD_maskReg {w : Nat} (hw : w ≤ 64) (k : Nat) : (maskReg w).getLsbD k = decide (k < w) := by
  rw [maskReg, BitVec.getLsbD_ofNat, Nat.testBit_two_pow_sub_one]
  by_cases hk : k < w
  · simp [hk, Nat.lt_of_lt_of_le hk hw]
  · simp [hk]

theorem xor_and_maskReg (v w : Reg) (n : Nat) : (v ^^^ w) &&& maskReg n = (v &&& maskReg n) ^^^ (w &&& maskReg n) :=
  BitVec.eq_of_toNat_eq (by simp only [BitVec.toNat_and, BitVec.toNat_xor, Nat.and_xor_distrib_right])

theorem maskReg_64 : maskReg 64 = BitVec.allOnes 64 := by decide

/-- What is read of a cell is within its effective width (R15). -/
theorem readCell_and_mask (s : State) (c : Cell) : s.readCell c &&& maskReg (Config.CELL_W c) = s.readCell c := by
  cases c with
  | c0 => rw [Config.CELL_W, maskReg_64, BitVec.and_allOnes]
  | c1 => rw [Config.CELL_W, maskReg_64, BitVec.and_allOnes]
  | c2 => exact maskReg32_idem s.w2

/-! ### XOR into a cell -/

/-- The cell itself takes the XOR, within its effective width. -/
theorem readCell_xorCell_same (s : State) (c : Cell) (v : Reg) :
    (s.xorCell c v).readCell c = s.readCell c ^^^ (v &&& maskReg (Config.CELL_W c)) := by
  rw [State.xorCell, readCell_writeCell_same, xor_and_maskReg, readCell_and_mask]

theorem readCell_xorCell_ne (s : State) {c d : Cell} (h : d ≠ c) (v : Reg) :
    (s.xorCell c v).readCell d = s.readCell d := readCell_writeCell_ne s h _

/-- Of two writes to a cell the second stands (R15). -/
theorem writeCell_writeCell (s : State) (c : Cell) (v w : Reg) : (s.writeCell c v).writeCell c w = s.writeCell c w := by
  cases c <;> rfl

/-- A write to a cell stores the value within the cell's effective width only (R15). -/
theorem writeCell_and_mask (s : State) (c : Cell) (v : Reg) :
    s.writeCell c (v &&& maskReg (Config.CELL_W c)) = s.writeCell c v := by
  cases c with
  | c0 => rw [Config.CELL_W, maskReg_64, BitVec.and_allOnes]
  | c1 => rw [Config.CELL_W, maskReg_64, BitVec.and_allOnes]
  | c2 => simp only [State.writeCell, Config.CELL_W, maskReg32_idem]

/-- Two XORs into one cell are the XOR of both values. -/
theorem xorCell_xorCell_same (s : State) (c : Cell) (v w : Reg) :
    (s.xorCell c v).xorCell c w = s.xorCell c (v ^^^ w) := by
  have hmasked : ((s.xorCell c v).readCell c ^^^ w) &&& maskReg (Config.CELL_W c) =
      (s.readCell c ^^^ (v ^^^ w)) &&& maskReg (Config.CELL_W c) := by
    rw [xor_and_maskReg, readCell_and_mask, readCell_xorCell_same, ← BitVec.xor_assoc, xor_and_maskReg _ w,
      xor_and_maskReg _ v, readCell_and_mask]
  calc (s.xorCell c v).xorCell c w
      = s.writeCell c ((s.xorCell c v).readCell c ^^^ w) := writeCell_writeCell ..
    _ = s.writeCell c (s.readCell c ^^^ (v ^^^ w)) := by rw [← writeCell_and_mask, hmasked, writeCell_and_mask]

/-- XORs into cells commute, whether the cells are the same or not. -/
theorem xorCell_comm (s : State) (c d : Cell) (v w : Reg) :
    (s.xorCell c v).xorCell d w = (s.xorCell d w).xorCell c v := by
  by_cases hcd : c = d
  · subst hcd
    rw [xorCell_xorCell_same, xorCell_xorCell_same, BitVec.xor_comm]
  · cases c <;> cases d
    case neg.c0.c0 | neg.c1.c1 | neg.c2.c2 => exact absurd rfl hcd
    all_goals rfl

/-! ### The two parts of a byte -/

/-- What goes into the byte's own cell (R58). -/
def ownPart (q : Nat) (b : Byte) : Reg :=
  (zextByte b <<< (cellOf q).2) &&& maskReg (Config.CELL_W (cellOf q).1)

/-- What goes into the next cell when the byte straddles (R58). -/
def overflowPart (q : Nat) (b : Byte) : Reg := zextByte b >>> remOf q

/-- R58, the branch without a straddle. -/
theorem foldByte_of_fits {q : Nat} (h : 8 ≤ remOf q) (b : Byte) (s : State) :
    foldByte q b s = s.xorCell (cellOf q).1 (ownPart q b) := if_pos h

/-- R58, the straddling branch. -/
theorem foldByte_of_straddles {q : Nat} (h : ¬ 8 ≤ remOf q) (b : Byte) (s : State) :
    foldByte q b s =
      (s.xorCell (cellOf q).1 (ownPart q b)).xorCell (nextCell (cellOf q).1) (overflowPart q b) := if_neg h

theorem zextByte_xor (a b : Byte) : zextByte (a ^^^ b) = zextByte a ^^^ zextByte b := BitVec.setWidth_xor

theorem ownPart_xor (q : Nat) (a b : Byte) : ownPart q (a ^^^ b) = ownPart q a ^^^ ownPart q b := by
  rw [ownPart, zextByte_xor, BitVec.shiftLeft_xor_distrib, xor_and_maskReg]
  rfl

theorem overflowPart_xor (q : Nat) (a b : Byte) : overflowPart q (a ^^^ b) = overflowPart q a ^^^ overflowPart q b := by
  rw [overflowPart, zextByte_xor, BitVec.ushiftRight_xor_distrib]
  rfl

/-- The high part of a byte fits every cell: it has 8 bits at most. -/
theorem overflowPart_and_mask (q : Nat) (b : Byte) (c : Cell) :
    overflowPart q b &&& maskReg (Config.CELL_W c) = overflowPart q b := by
  have hwidth : 32 ≤ Config.CELL_W c ∧ Config.CELL_W c ≤ 64 := by cases c <;> decide
  refine BitVec.eq_of_getLsbD_eq fun k _ => ?_
  rw [BitVec.getLsbD_and, getLsbD_maskReg hwidth.2]
  by_cases hk : k < Config.CELL_W c
  · rw [decide_eq_true hk, Bool.and_true]
  · have hzero : (overflowPart q b).getLsbD k = false := by
      rw [overflowPart, BitVec.getLsbD_ushiftRight, zextByte, BitVec.getLsbD_setWidth,
        BitVec.getLsbD_of_ge b _ (by omega), Bool.and_false]
    rw [hzero, Bool.false_and]

theorem nextCell_ne (c : Cell) : nextCell c ≠ c := by cases c <;> decide

theorem nextCell_nextCell_ne (c : Cell) : nextCell (nextCell c) ≠ c := by cases c <;> decide

/-! ### The cells after a fold (R58) -/

section
variable (q : Nat) (b : Byte) (s : State)

theorem ownPart_and_mask : ownPart q b &&& maskReg (Config.CELL_W (cellOf q).1) = ownPart q b := by
  rw [ownPart, BitVec.and_assoc, BitVec.and_self]

/-- The byte's own cell takes the own part; the overflow goes elsewhere. -/
theorem readCell_foldByte_own :
    (foldByte q b s).readCell (cellOf q).1 = s.readCell (cellOf q).1 ^^^ ownPart q b := by
  by_cases h : 8 ≤ remOf q
  · rw [foldByte_of_fits h, readCell_xorCell_same, ownPart_and_mask]
  · rw [foldByte_of_straddles h, readCell_xorCell_ne _ (nextCell_ne _).symm, readCell_xorCell_same, ownPart_and_mask]

/-- The next cell takes the overflow of a straddling byte. -/
theorem readCell_foldByte_next :
    (foldByte q b s).readCell (nextCell (cellOf q).1) =
      if 8 ≤ remOf q then s.readCell (nextCell (cellOf q).1)
      else s.readCell (nextCell (cellOf q).1) ^^^ overflowPart q b := by
  split
  case isTrue h => rw [foldByte_of_fits h, readCell_xorCell_ne _ (nextCell_ne _)]
  case isFalse h =>
    rw [foldByte_of_straddles h, readCell_xorCell_same, overflowPart_and_mask, readCell_xorCell_ne _ (nextCell_ne _)]

theorem readCell_foldByte_third :
    (foldByte q b s).readCell (nextCell (nextCell (cellOf q).1)) = s.readCell (nextCell (nextCell (cellOf q).1)) := by
  by_cases h : 8 ≤ remOf q
  · rw [foldByte_of_fits h, readCell_xorCell_ne _ (nextCell_nextCell_ne _)]
  · rw [foldByte_of_straddles h, readCell_xorCell_ne _ (nextCell_ne _), readCell_xorCell_ne _ (nextCell_nextCell_ne _)]

end

/-- Settles O19: a position made of base and offset is looked up as that cell and offset, so the three cells are those
of the fold's own equations. -/
theorem foldByteWritesItsCells : Obligations.FoldByteWritesItsCells := by
  unfold Obligations.FoldByteWritesItsCells
  intro c off b s hoff
  have hrem := remOf_base_add hoff
  have hcell := cellOf_base_add hoff
  have hown := readCell_foldByte_own (Config.CELL_BASE c + off) b s
  have hnext := readCell_foldByte_next (Config.CELL_BASE c + off) b s
  have hthird := readCell_foldByte_third (Config.CELL_BASE c + off) b s
  simp only [ownPart, overflowPart, hcell, hrem] at hown hnext hthird
  obtain ⟨hlen, hrot, herr, hecmd, hpending, hobserved⟩ := foldByte_sameButCells (Config.CELL_BASE c + off) b s
  exact ⟨hown, hnext, hthird, hlen, hrot, herr, hecmd, hpending, hobserved⟩

/-! ### The algebra of folds (R63) -/

/-- A fold commutes with a XOR into any cell. -/
theorem foldByte_xorCell (q : Nat) (b : Byte) (s : State) (c : Cell) (v : Reg) :
    foldByte q b (s.xorCell c v) = (foldByte q b s).xorCell c v := by
  by_cases h : 8 ≤ remOf q
  · simp only [foldByte_of_fits h]
    exact xorCell_comm ..
  · simp only [foldByte_of_straddles h]
    rw [xorCell_comm s c, xorCell_comm _ c]

/-- Folds commute: the order of the bytes does not matter when each keeps its position. -/
theorem foldByte_comm (p q : Nat) (a b : Byte) (s : State) :
    foldByte p a (foldByte q b s) = foldByte q b (foldByte p a s) := by
  by_cases h : 8 ≤ remOf p
  · simp only [foldByte_of_fits h, foldByte_xorCell]
  · simp only [foldByte_of_straddles h, foldByte_xorCell]

/-- Two folds at one position are one fold of the XOR (R63). -/
theorem foldByte_foldByte (q : Nat) (a b : Byte) (s : State) :
    foldByte q b (foldByte q a s) = foldByte q (a ^^^ b) s := by
  by_cases h : 8 ≤ remOf q
  · simp only [foldByte_of_fits h, ownPart_xor, xorCell_xorCell_same]
  · simp only [foldByte_of_straddles h, ownPart_xor, overflowPart_xor]
    rw [xorCell_comm (s.xorCell _ _), xorCell_xorCell_same, xorCell_xorCell_same]

end Sys2Proof.Machine
end

section
/-! The fold in ring form (R16, R64). -/

namespace Sys2Proof.Machine

/-! ### The rotated byte -/

/-- R64: bit k of the byte is bit (q + k) mod 160 of the rotated byte. -/
theorem getLsbD_ringByte {q p : Nat} (hq : q < 160) (hp : p < 160) (b : Byte) :
    (ringByte q b).getLsbD p = b.getLsbD ((p + 160 - q) % 160) := by
  rw [ringByte, BitVec.getLsbD_rotateLeft, Nat.mod_eq_of_lt hq]
  by_cases hpq : p < q
  · have hmod : (p + 160 - q) % 160 = 160 - q + p := by omega
    have hlt : 160 - q + p < 160 := by omega
    simp [hpq, hmod, hlt, BitVec.getLsbD_setWidth]
  · have hmod : (p + 160 - q) % 160 = p - q := by omega
    have hlt : p - q < 160 := by omega
    simp [hpq, hmod, hp, hlt, BitVec.getLsbD_setWidth]

/-! ### The ring read cell by cell -/

/-- A ring bit is a bit of its cell (R16). -/
theorem getLsbD_ring_base_add (s : State) {c : Cell} {k : Nat} (hk : k < Config.CELL_W c) :
    (ring s).getLsbD (Config.CELL_BASE c + k) = (s.readCell c).getLsbD k := by
  cases c <;> simp only [Config.CELL_W, Config.CELL_BASE] at hk ⊢ <;> rw [getLsbD_ring]
  case c0 => rw [if_pos (by omega), Nat.zero_add, readCell_c0]
  case c1 => rw [if_neg (by omega), if_pos (by omega), Nat.add_sub_cancel_left, readCell_c1]
  case c2 =>
    rw [if_neg (by omega), if_neg (by omega), Nat.add_sub_cancel_left, readCell_c2, BitVec.getLsbD_and,
      getLsbD_maskReg (by decide), decide_eq_true hk, decide_eq_true (by omega), Bool.true_and, Bool.and_true]

/-- The three cells, counted from any one of them. -/
theorem eq_or_eq_nextCell (c d : Cell) : d = c ∨ d = nextCell c ∨ d = nextCell (nextCell c) := by
  cases c <;> cases d <;> decide

/-! ### The parts of a byte, bit by bit (R58) -/

theorem getLsbD_byte_of_ge (b : Byte) {k : Nat} (hk : 8 ≤ k) : b.getLsbD k = false := BitVec.getLsbD_of_ge b k hk

theorem getLsbD_zextByte (b : Byte) (k : Nat) : (zextByte b).getLsbD k = b.getLsbD k := by
  rw [zextByte, BitVec.getLsbD_setWidth]
  by_cases hk : k < 64
  · rw [decide_eq_true hk, Bool.true_and]
  · rw [getLsbD_byte_of_ge b (by omega), Bool.and_false]

theorem getLsbD_overflowPart (q k : Nat) (b : Byte) : (overflowPart q b).getLsbD k = b.getLsbD (remOf q + k) := by
  rw [overflowPart, BitVec.getLsbD_ushiftRight, getLsbD_zextByte]

theorem getLsbD_ownPart {q k : Nat} (b : Byte) (hk : k < Config.CELL_W (cellOf q).1) :
    (ownPart q b).getLsbD k = (!decide (k < (cellOf q).2) && b.getLsbD (k - (cellOf q).2)) := by
  have hwidth : Config.CELL_W (cellOf q).1 ≤ 64 := by cases (cellOf q).1 <;> decide
  have hk64 : k < 64 := by omega
  rw [ownPart, BitVec.getLsbD_and, getLsbD_maskReg hwidth, BitVec.getLsbD_shiftLeft, getLsbD_zextByte,
    decide_eq_true hk, decide_eq_true hk64, Bool.true_and, Bool.and_true]

/-! ### The fold is a rotation -/

/-- Which bit of a byte folded at offset `off` of cell `c` comes to bit `k` of cell `d`: the distance round the ring
from the one position to the other (R64). -/
def bitIndex (c : Cell) (off : Nat) (d : Cell) (k : Nat) : Nat :=
  (Config.CELL_BASE d + k + 160 - (Config.CELL_BASE c + off)) % 160

section
variable {c : Cell} {off k : Nat}

theorem bitIndex_own_of_ge (hk : k < Config.CELL_W c) (h : off ≤ k) : bitIndex c off c k = k - off := by
  cases c <;> simp only [bitIndex, Config.CELL_W, Config.CELL_BASE] at hk ⊢ <;> omega

/-- Below the byte's own offset the cell takes nothing. -/
theorem eight_le_bitIndex_own (hoff : off < Config.CELL_W c) (h : k < off) : 8 ≤ bitIndex c off c k := by
  cases c <;> simp only [bitIndex, Config.CELL_W, Config.CELL_BASE] at hoff ⊢ <;> omega

theorem bitIndex_next (hoff : off < Config.CELL_W c) (hk : k < Config.CELL_W (nextCell c)) :
    bitIndex c off (nextCell c) k = Config.CELL_W c - off + k := by
  cases c <;> simp only [bitIndex, nextCell, Config.CELL_W, Config.CELL_BASE] at hoff hk ⊢ <;> omega

/-- Every cell is wider than a byte, so none of the byte reaches the third cell. -/
theorem eight_le_bitIndex_third (hoff : off < Config.CELL_W c) (hk : k < Config.CELL_W (nextCell (nextCell c))) :
    8 ≤ bitIndex c off (nextCell (nextCell c)) k := by
  cases c <;> simp only [bitIndex, nextCell, Config.CELL_W, Config.CELL_BASE] at hoff hk ⊢ <;> omega

end

/-- R58 in one line: the bit of a cell after a fold. -/
theorem getLsbD_readCell_foldByte {q k : Nat} (hq : q < 160) (b : Byte) (s : State) {d : Cell}
    (hk : k < Config.CELL_W d) :
    ((foldByte q b s).readCell d).getLsbD k =
      ((s.readCell d).getLsbD k ^^ b.getLsbD (bitIndex (cellOf q).1 (cellOf q).2 d k)) := by
  obtain ⟨hoff, -⟩ := cellOf_split hq
  obtain rfl | rfl | rfl := eq_or_eq_nextCell (cellOf q).1 d
  · rw [readCell_foldByte_own, BitVec.getLsbD_xor, getLsbD_ownPart b hk]
    by_cases h : k < (cellOf q).2
    · rw [getLsbD_byte_of_ge b (eight_le_bitIndex_own hoff h), decide_eq_true h, Bool.not_true, Bool.false_and]
    · rw [bitIndex_own_of_ge hk (Nat.not_lt.1 h), decide_eq_false h, Bool.not_false, Bool.true_and]
  · rw [readCell_foldByte_next, bitIndex_next hoff hk, ← remOf]
    split
    case isTrue hfits => rw [getLsbD_byte_of_ge b (by omega), Bool.xor_false]
    case isFalse => rw [BitVec.getLsbD_xor, getLsbD_overflowPart]
  · rw [readCell_foldByte_third, getLsbD_byte_of_ge b (eight_le_bitIndex_third hoff hk), Bool.xor_false]

/-- R64, bit by bit. -/
theorem getLsbD_ring_foldByte {q p : Nat} (hq : q < 160) (hp : p < 160) (b : Byte) (s : State) :
    (ring (foldByte q b s)).getLsbD p = ((ring s).getLsbD p ^^ b.getLsbD ((p + 160 - q) % 160)) := by
  obtain ⟨hk, hpos⟩ := cellOf_split hp
  obtain ⟨-, hbase⟩ := cellOf_split hq
  have hindex : bitIndex (cellOf q).1 (cellOf q).2 (cellOf p).1 (cellOf p).2 = (p + 160 - q) % 160 := by
    rw [bitIndex, hpos, hbase]
  have hbit := getLsbD_readCell_foldByte hq b s hk
  rwa [hindex, ← getLsbD_ring_base_add _ hk, ← getLsbD_ring_base_add _ hk, hpos] at hbit

/-- R64: a fold is an XOR of the rotated byte into the ring. -/
theorem ring_foldByte {q : Nat} (hq : q < 160) (b : Byte) (s : State) :
    ring (foldByte q b s) = ring s ^^^ ringByte q b := by
  refine BitVec.eq_of_getLsbD_eq fun p hp => ?_
  rw [getLsbD_ring_foldByte hq hp, BitVec.getLsbD_xor, getLsbD_ringByte hq hp]

/-! ### The registers read back from the ring (R16) -/

/-- A cell's readable value is its part of the ring. -/
theorem readCell_eq_extract_ring (s : State) (c : Cell) :
    s.readCell c = ((ring s).extractLsb' (Config.CELL_BASE c) (Config.CELL_W c)).setWidth 64 := by
  have hwidth : Config.CELL_W c ≤ 64 := by cases c <;> decide
  refine BitVec.eq_of_getLsbD_eq fun k hk => ?_
  rw [BitVec.getLsbD_setWidth, BitVec.getLsbD_extractLsb', decide_eq_true hk, Bool.true_and]
  by_cases h : k < Config.CELL_W c
  · rw [getLsbD_ring_base_add s h, decide_eq_true h, Bool.true_and]
  · rw [← readCell_and_mask, BitVec.getLsbD_and, getLsbD_maskReg hwidth, decide_eq_false h, Bool.and_false,
      Bool.false_and]

/-- The ring holds every cell. -/
theorem readCell_eq_of_ring_eq {s t : State} (h : ring s = ring t) (c : Cell) : s.readCell c = t.readCell c := by
  rw [readCell_eq_extract_ring, readCell_eq_extract_ring, h]

/-- With its high half 0, W2 is what is read of it (R15). -/
theorem w2_eq_readCell {s : State} (h : s.w2.extractLsb' 32 32 = 0) : s.w2 = s.readCell .c2 := by
  refine BitVec.eq_of_getLsbD_eq fun k hk => ?_
  rw [readCell_c2, BitVec.getLsbD_and, getLsbD_maskReg (by decide)]
  by_cases hlow : k < 32
  · rw [decide_eq_true hlow, Bool.and_true]
  · have hhigh : s.w2.getLsbD k = (s.w2.extractLsb' 32 32).getLsbD (k - 32) := by
      rw [BitVec.getLsbD_extractLsb', decide_eq_true (by omega), Bool.true_and]
      congr 1
      omega
    rw [hhigh, h, decide_eq_false hlow, Bool.and_false]
    exact BitVec.getLsbD_zero

theorem xorCell_w2_high {s : State} (h : s.w2.extractLsb' 32 32 = 0) (c : Cell) (v : Reg) :
    (s.xorCell c v).w2.extractLsb' 32 32 = 0 := by
  cases c with
  | c0 => exact h
  | c1 => exact h
  | c2 => exact extractLsb'_high_and_maskReg32 _

/-- A fold keeps the high half of W2 at 0, whether it writes W2 or not (R15). -/
theorem foldByte_w2_high (q : Nat) (b : Byte) {s : State} (h : s.w2.extractLsb' 32 32 = 0) :
    (foldByte q b s).w2.extractLsb' 32 32 = 0 := by
  by_cases hfits : 8 ≤ remOf q
  · rw [foldByte_of_fits hfits]
    exact xorCell_w2_high h _ _
  · rw [foldByte_of_straddles hfits]
    exact xorCell_w2_high (xorCell_w2_high h _ _) _ _

/-- The cells and the fields beside them are the whole state. -/
theorem SameButCells.eq_of_cells {s t : State} (h : SameButCells s t) (h0 : t.w0 = s.w0) (h1 : t.w1 = s.w1)
    (h2 : t.w2 = s.w2) : t = s := by
  obtain ⟨hlen, hrot, herr, hecmd, hpending, hobserved⟩ := h
  cases s
  cases t
  exact State.mk.injEq .. ▸ ⟨h0, h1, h2, hlen, hrot, herr, hecmd, hpending, hobserved⟩

/-- Writing into a state the ring of one that differs from it in the cells only gives that one (R16). -/
theorem writeRing_ring {s t : State} (h : SameButCells s t) (hw2 : t.w2.extractLsb' 32 32 = 0) :
    t = s.writeRing (ring t) := by
  have hframe : SameButCells (s.writeRing (ring t)) t := ⟨h.len, h.rot, h.err, h.ecmd, h.pending, h.observed⟩
  refine hframe.eq_of_cells ?w0 ?w1 ?w2
  case w0 => exact (readCell_eq_extract_ring t .c0).trans (BitVec.setWidth_eq _)
  case w1 => exact (readCell_eq_extract_ring t .c1).trans (BitVec.setWidth_eq _)
  case w2 =>
    calc t.w2 = t.readCell .c2 := w2_eq_readCell hw2
      _ = t.readCell .c2 &&& maskReg 32 := (readCell_and_mask t .c2).symm
      _ = (s.writeRing (ring t)).w2 := by rw [readCell_eq_extract_ring t .c2]; rfl

/-- The fold of R58 and the ring form of R64 are one state change where the high half of W2 is 0. -/
theorem foldByte_eq_foldByteRing {q : Nat} (hq : q < 160) (b : Byte) {s : State} (h : s.w2.extractLsb' 32 32 = 0) :
    foldByte q b s = foldByteRing q b s := by
  rw [foldByteRing, ← ring_foldByte hq]
  exact writeRing_ring (foldByte_sameButCells q b s) (foldByte_w2_high q b h)

/-! ### The closed form of a message (R19, R64) -/

/-- One more byte folds at position 11 T mod 160 after the T bytes before it. -/
theorem messageRing_concat (m : List Byte) (b : Byte) :
    messageRing (m ++ [b]) = messageRing m ^^^ ringByte (11 * m.length % 160) b := by
  have hbefore : ∀ (r : Ring), ∀ j ∈ List.range m.length,
      r ^^^ ringByte (Config.SHIFT * j % Config.WIDTH) ((m ++ [b]).getD j 0) =
        r ^^^ ringByte (Config.SHIFT * j % Config.WIDTH) (m.getD j 0) := by
    intro r j hj
    rw [List.getD_append _ _ _ _ (List.mem_range.1 hj)]
  have hlast : (m ++ [b]).getD m.length 0 = b := by simp
  rw [messageRing, List.length_append, List.length_singleton, List.range_succ, List.foldl_append,
    List.foldl_ext _ _ _ hbefore, List.foldl_cons, List.foldl_nil, hlast]
  rfl

/-- The loop of R60 continues the closed form of a message at the position where the message stands. -/
theorem ring_foldBytes (bs : List Byte) :
    ∀ (m : List Byte) (s : State), ring s = messageRing m →
      ring (foldBytes (11 * m.length % 160) bs s) = messageRing (m ++ bs) := by
  induction bs with
  | nil =>
    intro m s h
    rw [List.append_nil]
    exact h
  | cons b bs ih =>
    intro m s h
    have hnext : nextOffset (11 * m.length % 160) = 11 * (m ++ [b]).length % 160 := by
      simp only [nextOffset, Config.SHIFT, Config.WIDTH, List.length_append, List.length_singleton]
      omega
    have hring : ring (foldByte (11 * m.length % 160) b s) = messageRing (m ++ [b]) := by
      rw [ring_foldByte (Nat.mod_lt _ (by decide)), h, messageRing_concat]
    rw [foldBytes, hnext, ih _ _ hring, List.append_assoc, List.singleton_append]

/-- The ring after a chunk update is the fold's: ROT and LEN are no part of it (R16). -/
theorem ring_update (bs : List Byte) (s : State) : ring (update bs s) = ring (foldBytes s.rot.toNat bs s) := rfl

/-- An update extends the message whose closed form the state holds (R19, R64). -/
theorem messageState_update {m : List Byte} {s : State} (h : MessageState m s) (bs : List Byte) :
    MessageState (m ++ bs) (update bs s) := by
  obtain ⟨hring, hlen, hrot⟩ := h
  refine ⟨?_, ?_, ?_⟩
  · rw [ring_update, hrot]
    exact ring_foldBytes bs m s hring
  · obtain ⟨hlen', -⟩ := update_fields bs s
    rw [hlen', BitVec.toNat_add, BitVec.toNat_ofNat, hlen, List.length_append]
    omega
  · rw [update_rot_toNat, hrot, List.length_append]
    simp only [Config.SHIFT, Config.WIDTH]
    omega

/-- The zero state is the closed form of the empty message. -/
theorem messageState_of_hashZero {s : State} (h : HashZero s) : MessageState [] s := by
  obtain ⟨h0, h1, h2, hlen, hrot⟩ := h
  refine ⟨?_, ?_, ?_⟩
  · rw [ring, readCell_c0, readCell_c1, readCell_c2, h0, h1, h2]
    decide
  · rw [hlen]
    rfl
  · rw [hrot]
    rfl

/-- From the zero state an update reaches the closed form of its own bytes (R64). -/
theorem messageState_update_of_hashZero {s : State} (h : HashZero s) (bs : List Byte) :
    MessageState bs (update bs s) := messageState_update (messageState_of_hashZero h) bs

/-- Settles O23: the fold is read bit by bit through the cells, and a message is folded byte by byte. -/
theorem foldIsARingRotation : Obligations.FoldIsARingRotation := by
  unfold Obligations.FoldIsARingRotation
  refine ⟨fun q b s hq => ⟨ring_foldByte hq b s, fun p hp => getLsbD_ring_foldByte hq hp b s,
    foldByte_eq_foldByteRing hq b⟩, fun bs s hzero => ?_⟩
  obtain ⟨hring, hlen, hrot⟩ := messageState_update_of_hashZero hzero bs
  exact ⟨hring, hrot, hlen⟩

end Sys2Proof.Machine
end

section
/-! The batched fold (R63). -/

namespace Sys2Proof.Machine

/-! ### The phase XORs -/

/-- One more byte changes the XOR of its own phase only. -/
theorem phaseXor_concat (bs : List Byte) (b : Byte) (i : Nat) :
    phaseXor (bs ++ [b]) i = if bs.length % 160 = i then phaseXor bs i ^^^ b else phaseXor bs i := by
  have hbefore : ∀ (x : Byte), ∀ j ∈ (List.range bs.length).filter (fun j => j % Config.WIDTH == i),
      x ^^^ (bs ++ [b]).getD j 0 = x ^^^ bs.getD j 0 := by
    intro x j hj
    rw [List.getD_append _ _ _ _ (List.mem_range.1 (List.mem_filter.1 hj).1)]
  have hlast : (bs ++ [b]).getD bs.length 0 = b := by simp
  rw [phaseXor, List.length_append, List.length_singleton, List.range_succ, List.filter_append, List.foldl_append,
    List.foldl_ext _ _ _ hbefore, ← phaseXor]
  split
  case isTrue h => simp [h]
  case isFalse h => simp [h]

/-- A phase that no byte has reached is 0. -/
theorem phaseXor_eq_zero_of_length_le {bs : List Byte} {i : Nat} (h : bs.length ≤ i) : phaseXor bs i = 0 := by
  have hnone : (List.range bs.length).filter (fun j => j % Config.WIDTH == i) = [] := by
    refine List.filter_eq_nil_iff.2 fun j hj => ?_
    have hlt := List.mem_range.1 hj
    have hle := Nat.mod_le j Config.WIDTH
    simp only [beq_iff_eq]
    omega
  rw [phaseXor, hnone, List.foldl_nil]

/-! ### A fold of phases -/

/-- Fold the byte `x i` once at the position of each phase i of a list (R63). -/
def foldPhases (q : Nat) (x : Nat → Byte) (is : List Nat) (s : State) : State :=
  is.foldl (fun t i => foldByte ((q + Config.SHIFT * i) % Config.WIDTH) (x i) t) s

theorem foldBatched_eq_foldPhases (q : Nat) (bs : List Byte) (s : State) :
    foldBatched q bs s = foldPhases q (phaseXor bs) (List.range (min bs.length 160)) s := rfl

/-- Only the bytes at the listed phases count. -/
theorem foldPhases_congr {x y : Nat → Byte} {is : List Nat} (h : ∀ i ∈ is, x i = y i) (q : Nat) (s : State) :
    foldPhases q x is s = foldPhases q y is s :=
  List.foldl_ext _ _ _ fun t i hi => by rw [h i hi]

theorem foldPhases_concat (q : Nat) (x : Nat → Byte) (is : List Nat) (i : Nat) (s : State) :
    foldPhases q x (is ++ [i]) s = foldByte ((q + Config.SHIFT * i) % Config.WIDTH) (x i) (foldPhases q x is s) := by
  rw [foldPhases, List.foldl_append]
  rfl

/-- A fold commutes with a fold of phases. -/
theorem foldPhases_foldByte (q : Nat) (x : Nat → Byte) (p : Nat) (b : Byte) (is : List Nat) :
    ∀ s : State, foldPhases q x is (foldByte p b s) = foldByte p b (foldPhases q x is s) := by
  induction is with
  | nil => exact fun _ => rfl
  | cons i is ih =>
    intro s
    show foldPhases q x is (foldByte _ (x i) (foldByte p b s)) = foldByte p b (foldPhases q x is (foldByte _ (x i) s))
    rw [foldByte_comm, ih]

/-- One byte more in the XOR of a phase that is folded anyway is one fold more at its position (R63). -/
theorem foldPhases_xor {x y : Nat → Byte} {k : Nat} {b : Byte} (hk : y k = x k ^^^ b) (hne : ∀ i, i ≠ k → y i = x i)
    (q : Nat) {is : List Nat} (hnodup : is.Nodup) (hmem : k ∈ is) :
    ∀ s : State,
      foldPhases q y is s = foldByte ((q + Config.SHIFT * k) % Config.WIDTH) b (foldPhases q x is s) := by
  induction is with
  | nil => cases hmem
  | cons i is ih =>
    intro s
    obtain ⟨hi, hnodup'⟩ := List.nodup_cons.1 hnodup
    show foldPhases q y is (foldByte _ (y i) s) = foldByte _ b (foldPhases q x is (foldByte _ (x i) s))
    by_cases hik : i = k
    · subst hik
      have hrest : ∀ j ∈ is, y j = x j := fun j hj => hne j fun h => hi (h ▸ hj)
      rw [hk, foldPhases_congr hrest, ← foldPhases_foldByte, foldByte_foldByte]
    · have hmem' : k ∈ is := (List.mem_cons.1 hmem).resolve_left (Ne.symm hik)
      rw [hne i hik, ih hnodup' hmem']

/-! ### Batched and naive -/

/-- One more byte in the chunk is one more fold of the batched form, at the byte's position. -/
theorem foldBatched_concat (q : Nat) (bs : List Byte) (b : Byte) (s : State) :
    foldBatched q (bs ++ [b]) s = foldByte ((q + 11 * (bs.length % 160)) % 160) b (foldBatched q bs s) := by
  have hown : phaseXor (bs ++ [b]) (bs.length % 160) = phaseXor bs (bs.length % 160) ^^^ b := by
    rw [phaseXor_concat, if_pos rfl]
  have hother : ∀ i, i ≠ bs.length % 160 → phaseXor (bs ++ [b]) i = phaseXor bs i := by
    intro i hi
    rw [phaseXor_concat, if_neg (Ne.symm hi)]
  rw [foldBatched_eq_foldPhases, foldBatched_eq_foldPhases, List.length_append, List.length_singleton]
  by_cases hshort : bs.length < 160
  · have hphase : bs.length % 160 = bs.length := Nat.mod_eq_of_lt hshort
    rw [hphase] at hown hother ⊢
    have hsame : ∀ i ∈ List.range bs.length, phaseXor (bs ++ [b]) i = phaseXor bs i :=
      fun i hi => hother i (Nat.ne_of_lt (List.mem_range.1 hi))
    have hbyte : phaseXor (bs ++ [b]) bs.length = b := by
      rw [hown, phaseXor_eq_zero_of_length_le le_rfl]
      exact BitVec.zero_xor
    rw [Nat.min_eq_left hshort, Nat.min_eq_left hshort.le, List.range_succ, foldPhases_concat, hbyte,
      foldPhases_congr hsame]
    rfl
  · have hmem : bs.length % 160 ∈ List.range 160 := List.mem_range.2 (Nat.mod_lt _ (by decide))
    rw [Nat.min_eq_right (by omega), Nat.min_eq_right (by omega)]
    exact foldPhases_xor hown hother q List.nodup_range hmem s

/-- R63: the batched fold is the loop of R60. -/
theorem foldBatched_eq_foldBytes {q : Nat} (hq : q < 160) (bs : List Byte) (s : State) :
    foldBatched q bs s = foldBytes q bs s := by
  induction bs using List.reverseRecOn with
  | nil => rfl
  | append_singleton bs b ih =>
    rw [foldBatched_concat, foldBytes_append, runningOffset_eq _ hq, ih]
    rfl

theorem updateBatched_eq_update (bs : List Byte) {s : State} (hrot : s.rot.toNat < 160) :
    updateBatched bs s = update bs s := by
  rw [updateBatched, foldBatched_eq_foldBytes hrot, update]

/-- Settles O26: the two updates differ in their folds only, and the folds agree byte by byte from the end. -/
theorem batchedUpdateEqualsNaive : Obligations.BatchedUpdateEqualsNaive := by
  unfold Obligations.BatchedUpdateEqualsNaive
  exact fun bs s hrot => updateBatched_eq_update bs hrot

end Sys2Proof.Machine
end

section
/-! Splitting a message into commands (R61, R62). -/

namespace Sys2Proof.Machine

/-! ### The fold passes the fields beside the cells by -/

/-- A change of state that every XOR into a cell passes by is passed by the fold of a chunk too. -/
theorem foldBytes_comm_of_xorCell {f : State → State}
    (hf : ∀ (s : State) (c : Cell) (v : Reg), (f s).xorCell c v = f (s.xorCell c v)) (bs : List Byte) :
    ∀ (q : Nat) (s : State), foldBytes q bs (f s) = f (foldBytes q bs s) := by
  have hfold : ∀ (q : Nat) (b : Byte) (s : State), foldByte q b (f s) = f (foldByte q b s) := by
    intro q b s
    by_cases h : 8 ≤ remOf q
    · simp only [foldByte_of_fits h, hf]
    · simp only [foldByte_of_straddles h, hf]
  induction bs with
  | nil => exact fun _ _ => rfl
  | cons b bs ih =>
    intro q s
    rw [foldBytes, hfold, ih]
    rfl

theorem foldBytes_setRot (q : Nat) (bs : List Byte) (s : State) (r : BitVec 8) :
    foldBytes q bs (s.setRot r) = (foldBytes q bs s).setRot r :=
  foldBytes_comm_of_xorCell (f := (·.setRot r)) (fun _ c _ => by cases c <;> rfl) bs q s

theorem foldBytes_setLen (q : Nat) (bs : List Byte) (s : State) (v : Reg) :
    foldBytes q bs (s.setLen v) = (foldBytes q bs s).setLen v :=
  foldBytes_comm_of_xorCell (f := (·.setLen v)) (fun _ c _ => by cases c <;> rfl) bs q s

theorem foldBytes_withPending (q : Nat) (bs : List Byte) (s : State) (es : List HostEvent) :
    foldBytes q bs (s.withPending es) = (foldBytes q bs s).withPending es :=
  foldBytes_comm_of_xorCell (f := (·.withPending es)) (fun _ c _ => by cases c <;> rfl) bs q s

/-- The pending events play no part in an update. -/
theorem update_withPending (bs : List Byte) (s : State) (es : List HostEvent) :
    update bs (s.withPending es) = (update bs s).withPending es := by
  rw [update, withPending_rot, withPending_len, foldBytes_withPending]
  rfl

/-! ### Updates compose (R61, R62) -/

/-- The zero-length update is no change (R60). -/
theorem update_nil {s : State} (hrot : s.rot.toNat < 160) : update [] s = s := by
  have hrot' : BitVec.ofNat 8 ((s.rot.toNat + Config.SHIFT * (0 % Config.WIDTH)) % Config.WIDTH) = s.rot := by
    refine BitVec.eq_of_toNat_eq ?_
    rw [BitVec.toNat_ofNat]
    simp only [Config.SHIFT, Config.WIDTH]
    omega
  rw [update, List.length_nil, hrot', BitVec.add_zero]
  rfl

theorem update_rot_lt (bs : List Byte) (s : State) : (update bs s).rot.toNat < 160 := by
  rw [update_rot_toNat]
  exact Nat.mod_lt _ (by decide)

/-- Two chunks one after the other are one chunk: the second begins at the running offset where the first ended. -/
theorem update_append (as bs : List Byte) {s : State} (hrot : s.rot.toNat < 160) :
    update (as ++ bs) s = update bs (update as s) := by
  have hstart : (update as s).rot.toNat = runningOffset s.rot.toNat as.length := by
    rw [update_rot_toNat, runningOffset_eq _ hrot]
  have hfold : foldBytes (update as s).rot.toNat bs (update as s) =
      ((foldBytes s.rot.toNat (as ++ bs) s).setRot (update as s).rot).setLen (update as s).len := by
    rw [hstart, foldBytes_append, ← foldBytes_setRot, ← foldBytes_setLen]
    rfl
  have hrotEnd : (s.rot.toNat + Config.SHIFT * ((as ++ bs).length % Config.WIDTH)) % Config.WIDTH =
      ((update as s).rot.toNat + Config.SHIFT * (bs.length % Config.WIDTH)) % Config.WIDTH := by
    rw [update_rot_toNat, List.length_append]
    simp only [Config.SHIFT, Config.WIDTH]
    omega
  have hlenEnd : s.len + BitVec.ofNat 64 (as ++ bs).length = (update as s).len + BitVec.ofNat 64 bs.length := by
    obtain ⟨hlen, -⟩ := update_fields as s
    rw [hlen, List.length_append, BitVec.ofNat_add, BitVec.add_assoc]
  have hupdate : update bs (update as s) = ((foldBytes (update as s).rot.toNat bs (update as s)).setRot
      (BitVec.ofNat 8 (((update as s).rot.toNat + Config.SHIFT * (bs.length % Config.WIDTH)) % Config.WIDTH))).setLen
      ((update as s).len + BitVec.ofNat 64 bs.length) := rfl
  rw [hupdate, hfold, ← hrotEnd, ← hlenEnd]
  rfl

/-! ### The commands of a message (R62, R88) -/

/-- Every command but RESET is the update by its data bytes. -/
theorem commandEffect_eq_update {i : Instr} (hi : i ≠ .reset) {s : State} (hrot : s.rot.toNat < 160) :
    commandEffect i s = update i.dataBytes s := by
  cases i with
  | nop => exact (update_nil hrot).symm
  | reset => exact absurd rfl hi
  | upd0 => rfl
  | upd1 b0 => rfl
  | upd2 b0 b1 => rfl
  | upd3 b0 b1 b2 => rfl

theorem exists_decode_of_messageWord {w : Word} (h : messageWord w = true) : ∃ i, decode w = .ok i ∧ i ≠ .reset := by
  cases hw : decode w with
  | error x => simp [messageWord, hw] at h
  | ok i =>
    refine ⟨i, rfl, ?_⟩
    rintro rfl
    simp [messageWord, hw] at h

theorem dataOf_cons_of_ok {w : Word} {i : Instr} (h : decode w = .ok i) (ws : List Word) :
    dataOf (w :: ws) = i.dataBytes ++ dataOf ws := by
  rw [dataOf, List.flatMap_cons, h]
  rfl

/-- The words of a message bring about the update by their data bytes, and each takes its event off the pending ones. -/
theorem eventsEffect_commands {ws : List Word} (hws : ∀ w ∈ ws, messageWord w = true) :
    ∀ s : State, s.rot.toNat < 160 →
      eventsEffect (commands ws) s = (update (dataOf ws) s).withPending (s.pending.drop ws.length) := by
  induction ws with
  | nil =>
    intro s hrot
    show s = (update [] s).withPending s.pending
    rw [update_nil hrot, withPending_self]
  | cons w ws ih =>
    intro s hrot
    obtain ⟨hw, hws'⟩ := List.forall_mem_cons.1 hws
    obtain ⟨i, hdecode, hi⟩ := exists_decode_of_messageWord hw
    have hfirst : eventEffect (.command w) (s.withPending (s.pending.drop 1)) =
        (update i.dataBytes s).withPending (s.pending.drop 1) := by
      rw [eventEffect_command_of_ok hdecode, commandEffect_eq_update hi (s := s.withPending (s.pending.drop 1)) hrot,
        update_withPending]
    show eventsEffect (commands ws) (eventEffect (.command w) _) = _
    rw [hfirst, ih hws' ((update i.dataBytes s).withPending (s.pending.drop 1)) (update_rot_lt _ _),
      update_withPending, withPending_twice, withPending_pending,
      List.drop_drop, dataOf_cons_of_ok hdecode, update_append _ _ hrot, List.length_cons, Nat.add_comm]

/-- The run of a message's words is one update by their data bytes (R62). -/
theorem runOf_commands {ws : List Word} (hws : ∀ w ∈ ws, messageWord w = true) {s : State}
    (hrot : s.rot.toNat < 160) : runOf (commands ws) s = .next ((update (dataOf ws) s).withPending []) := by
  have hpending : (commands ws).drop ws.length = [] := List.drop_of_length_le (by rw [commands, List.length_map])
  rw [runOf_eq, eventsEffect_commands hws (s.withPending (commands ws)) hrot, withPending_pending,
    hpending, update_withPending, withPending_twice]

/-- Settles O25: the run is told by the data bytes alone. -/
theorem splitOfAMessageIsInvisible : Obligations.SplitOfAMessageIsInvisible := by
  unfold Obligations.SplitOfAMessageIsInvisible
  intro ws vs s hrot hws hvs hdata
  exact ⟨runOf_commands hws hrot, hdata ▸ runOf_commands hvs hrot⟩

end Sys2Proof.Machine
end

section
/-! What follows from the fold's algebra: copies of one byte, equal phases, equal rings (R66). -/

namespace Sys2Proof.Machine

open Sys2Proof.Claims

/-! ### Copies of one byte -/

/-- A bit of an XOR over a list is the parity of the terms that have it. -/
theorem getLsbD_foldl_xor {α : Type} (f : α → Ring) (p : Nat) (l : List α) :
    (l.foldl (fun r a => r ^^^ f a) 0).getLsbD p = decide (l.countP (fun a => (f a).getLsbD p) % 2 = 1) := by
  induction l using List.reverseRecOn with
  | nil => simp
  | append_singleton l a ih =>
    rw [List.foldl_append, List.foldl_cons, List.foldl_nil, BitVec.getLsbD_xor, ih, List.countP_append,
      List.countP_singleton]
    cases (f a).getLsbD p
    · simp
    · simp only [Bool.xor_true, if_true, ← decide_not, decide_eq_decide]
      omega

/-- Which bit of its byte index j of a message brings to ring bit p (R64). -/
def messageBitIndex (p j : Nat) : Nat := (p + 160 - 11 * j % 160) % 160

/-- A ring bit after n copies of a byte is the parity of the bits that come to it. -/
theorem getLsbD_messageRing_replicate (n : Nat) (x : Byte) {p : Nat} (hp : p < 160) :
    (messageRing (List.replicate n x)).getLsbD p =
      decide ((List.range n).countP (fun j => x.getLsbD (messageBitIndex p j)) % 2 = 1) := by
  have hbit : ∀ j ∈ List.range n,
      (ringByte (11 * j % 160) ((List.replicate n x).getD j 0)).getLsbD p = x.getLsbD (messageBitIndex p j) := by
    intro j hj
    rw [getLsbD_ringByte (Nat.mod_lt _ (by decide)) hp, List.getD_replicate _ (List.mem_range.1 hj), messageBitIndex]
  have hcount := List.countP_congr fun j hj => Bool.eq_iff_iff.1 (hbit j hj)
  rw [messageRing, getLsbD_foldl_xor, List.length_replicate, ← hcount]
  rfl

/-- The byte indices of one period bring each bit index to a ring bit exactly once (R65). -/
theorem messageBitIndex_perm {p : Nat} (hp : p < 160) :
    ((List.range 160).map (messageBitIndex p)).Perm (List.range 160) := by
  have hnodup : ((List.range 160).map (messageBitIndex p)).Nodup := by
    refine List.nodup_range.map_on fun i hi j hj h => ?_
    rw [List.mem_range] at hi hj
    simp only [messageBitIndex] at h
    exact phase_eq_of_shift_mul_mod_eq hi hj (by simp only [Config.SHIFT, Config.WIDTH]; omega)
  have hsub : (List.range 160).map (messageBitIndex p) ⊆ List.range 160 := by
    intro k hk
    obtain ⟨j, -, rfl⟩ := List.mem_map.1 hk
    exact List.mem_range.2 (Nat.mod_lt _ (by decide))
  exact (List.subperm_of_subset hnodup hsub).perm_of_length_le (by simp)

/-- The number of set bits of a byte. -/
def bitCount (x : Byte) : Nat := (List.range 8).countP fun k => x.getLsbD k

theorem oddParity_iff (x : Byte) : OddParity x ↔ bitCount x % 2 = 1 := by
  rw [OddParity, bitCount, List.countP_eq_length_filter]

/-- Over one period every ring bit takes each bit of the byte once (R66). -/
theorem countP_period (x : Byte) {p : Nat} (hp : p < 160) :
    (List.range 160).countP (fun j => x.getLsbD (messageBitIndex p j)) = bitCount x := by
  have hhigh : ((List.range 152).map (8 + ·)).countP (fun k => x.getLsbD k) = 0 := by
    rw [List.countP_map, List.countP_eq_zero]
    intro k _
    rw [Function.comp_apply, getLsbD_byte_of_ge x (Nat.le_add_right 8 k)]
    exact Bool.false_ne_true
  calc (List.range 160).countP (fun j => x.getLsbD (messageBitIndex p j))
      = ((List.range 160).map (messageBitIndex p)).countP (fun k => x.getLsbD k) := List.countP_map.symm
    _ = (List.range (8 + 152)).countP (fun k => x.getLsbD k) := (messageBitIndex_perm hp).countP_eq _
    _ = bitCount x := by rw [List.range_add, List.countP_append, hhigh, Nat.add_zero, bitCount]

theorem getLsbD_messageRing_period (x : Byte) {p : Nat} (hp : p < 160) :
    (messageRing (List.replicate 160 x)).getLsbD p = decide (bitCount x % 2 = 1) := by
  rw [getLsbD_messageRing_replicate 160 x hp, countP_period x hp]

/-- The second period folds each byte where the first did, and the two cancel. -/
theorem messageRing_two_periods (x : Byte) : messageRing (List.replicate 320 x) = 0 := by
  refine BitVec.eq_of_getLsbD_eq fun p hp => ?_
  have hsecond : ((List.range 160).map (160 + ·)).countP (fun j => x.getLsbD (messageBitIndex p j)) = bitCount x := by
    have hindex : ∀ j, messageBitIndex p (160 + j) = messageBitIndex p j := by
      intro j
      simp only [messageBitIndex]
      omega
    rw [List.countP_map, ← countP_period x hp]
    simp only [Function.comp_def, hindex]
  have heven : (bitCount x + bitCount x) % 2 ≠ 1 := by omega
  rw [getLsbD_messageRing_replicate 320 x hp, show 320 = 160 + 160 from rfl, List.range_add, List.countP_append,
    countP_period x hp, hsecond, decide_eq_false heven]
  exact BitVec.getLsbD_zero.symm

theorem messageRing_period_of_odd {x : Byte} (h : OddParity x) :
    messageRing (List.replicate 160 x) = BitVec.allOnes 160 := by
  refine BitVec.eq_of_getLsbD_eq fun p hp => ?_
  rw [getLsbD_messageRing_period x hp, decide_eq_true ((oddParity_iff x).1 h), BitVec.getLsbD_allOnes,
    decide_eq_true hp]

theorem messageRing_period_of_even {x : Byte} (h : ¬ OddParity x) : messageRing (List.replicate 160 x) = 0 := by
  refine BitVec.eq_of_getLsbD_eq fun p hp => ?_
  rw [getLsbD_messageRing_period x hp, decide_eq_false ((oddParity_iff x).not.1 h)]
  exact BitVec.getLsbD_zero.symm

/-- ROT and LEN after whole periods from the zero state. -/
theorem update_periods_counters {s : State} (hzero : HashZero s) {bs : List Byte} {k : Nat}
    (hlength : bs.length = 160 * k) : (update bs s).rot = 0 ∧ (update bs s).len = BitVec.ofNat 64 (160 * k) := by
  obtain ⟨-, hlen, hrot⟩ := messageState_update_of_hashZero hzero bs
  refine ⟨BitVec.eq_of_toNat_eq ?_, BitVec.eq_of_toNat_eq ?_⟩
  · rw [hrot, hlength]
    show 11 * (160 * k) % 160 = 0
    omega
  · rw [hlen, hlength, BitVec.toNat_ofNat]

/-! ### Equal phases -/

/-- The batched form sees a chunk's length and its phase XORs only, so the update does too (R63, R66). -/
theorem update_eq_of_phaseXor_eq {as bs : List Byte} (hlength : as.length = bs.length)
    (hphases : ∀ i, i < 160 → phaseXor as i = phaseXor bs i) {s : State} (hrot : s.rot.toNat < 160) :
    update as s = update bs s := by
  have hfold : foldBatched s.rot.toNat as s = foldBatched s.rot.toNat bs s := by
    rw [foldBatched_eq_foldPhases, foldBatched_eq_foldPhases, hlength]
    exact foldPhases_congr (fun i hi => hphases i ((List.mem_range.1 hi).trans_le (Nat.min_le_right _ _))) _ _
  rw [← updateBatched_eq_update as hrot, ← updateBatched_eq_update bs hrot, updateBatched, updateBatched, hfold, hlength]

/-! ### Equal rings under different lengths -/

/-- A register is told by its eight bytes. -/
theorem eq_of_le8_eq {v w : Reg} (h : le8 v = le8 w) : v = w := by
  refine BitVec.eq_of_getLsbD_eq fun k hk => ?_
  have hbyte : regByte v (k / 8) = regByte w (k / 8) := List.map_inj_left.1 h _ (List.mem_range.2 (by omega))
  have hbit := congrArg (fun b => b.getLsbD (k % 8)) hbyte
  simpa [regByte, BitVec.getLsbD_extractLsb', Nat.mod_lt, Nat.div_add_mod] using hbit

/-- XOR with one list of bytes can be undone by XOR with it once more. -/
theorem zipWith_xor_zipWith_xor : ∀ {d bs : List Byte}, bs.length = d.length →
    List.zipWith (· ^^^ ·) d (List.zipWith (· ^^^ ·) d bs) = bs
  | [], [], _ => rfl
  | x :: d, b :: bs, h => by
    have hhead : x ^^^ (x ^^^ b) = b := by rw [← BitVec.xor_assoc, BitVec.xor_self, BitVec.zero_xor]
    rw [List.zipWith_cons_cons, List.zipWith_cons_cons, hhead, zipWith_xor_zipWith_xor (Nat.succ.inj h)]

theorem serializeCells_eq_of_ring_eq {s t : State} (h : ring s = ring t) : serializeCells s = serializeCells t := by
  simp only [serializeCells, readCell_eq_of_ring_eq h]

/-- For one ring the digest tells the length (R66, R68). -/
theorem len_eq_of_digest_eq {s t : State} (hring : ring s = ring t) (hdigest : digest s = digest t) : s.len = t.len := by
  rw [digest, digest, serializeCells_eq_of_ring_eq hring, xorLength, xorLength, List.append_right_inj] at hdigest
  have hlength : ∀ v : Reg, (le8 v).length = ((serializeCells t).drop Config.LEN_XOR_LO).length := by
    simp [serializeCells, le8]
  apply eq_of_le8_eq
  rw [← zipWith_xor_zipWith_xor (hlength s.len), hdigest, zipWith_xor_zipWith_xor (hlength t.len)]

/-- Settles O27: copies by the parity of the bits that come to a ring bit, equal phases by the batched form, equal rings
by cancelling the cells' bytes. -/
theorem copiesAndPhasesOfAMessage : Obligations.CopiesAndPhasesOfAMessage := by
  unfold Obligations.CopiesAndPhasesOfAMessage
  refine ⟨fun x s hzero => ?copies, fun as bs s hzero hlength hphases => ?phases,
    fun s t hring hlen hdigest => hlen (len_eq_of_digest_eq hring hdigest)⟩
  case copies =>
    obtain ⟨hring1, -, -⟩ := messageState_update_of_hashZero hzero (List.replicate 160 x)
    obtain ⟨hring2, -, -⟩ := messageState_update_of_hashZero hzero (List.replicate 320 x)
    obtain ⟨hrot1, hlen1⟩ := update_periods_counters hzero (bs := List.replicate 160 x) (k := 1) List.length_replicate
    obtain ⟨hrot2, hlen2⟩ := update_periods_counters hzero (bs := List.replicate 320 x) (k := 2) List.length_replicate
    rw [hring1, hring2]
    exact ⟨messageRing_period_of_odd, messageRing_period_of_even, hrot1, hlen1, messageRing_two_periods x, hrot2, hlen2⟩
  case phases =>
    obtain ⟨-, -, -, -, hrot⟩ := hzero
    have hupdate : update as s = update bs s := update_eq_of_phaseXor_eq hlength hphases (by rw [hrot]; decide)
    rw [hupdate]
    exact ⟨rfl, rfl, rfl, rfl⟩

end Sys2Proof.Machine
end

section
/-! The digest, byte by byte and as an integer (R67, R68, R69). -/

namespace Sys2Proof.Machine

/-! ### The bytes of the digest (R67, R69) -/

theorem getElem?_le8 (v : Reg) {k : Nat} (hk : k < 8) : (le8 v)[k]? = some (regByte v k) := by
  rw [le8, List.getElem?_map, List.getElem?_range hk, Option.map_some]

theorem length_le8 (v : Reg) : (le8 v).length = 8 := by rw [le8, List.length_map, List.length_range]

section
variable (s : State) {k : Nat}

/-- W0 fills the first eight bytes. -/
theorem getElem?_serializeCells_w0 (hk : k < 8) : (serializeCells s)[k]? = some (regByte s.w0 k) := by
  rw [serializeCells, List.append_assoc, List.getElem?_append_left (by rw [length_le8]; exact hk), getElem?_le8 _ hk,
    readCell_c0]

/-- W1 fills the next eight. -/
theorem getElem?_serializeCells_w1 (hk : k < 8) : (serializeCells s)[8 + k]? = some (regByte s.w1 k) := by
  rw [serializeCells, List.append_assoc, List.getElem?_append_right (by rw [length_le8]; omega), length_le8,
    Nat.add_sub_cancel_left, List.getElem?_append_left (by rw [length_le8]; exact hk), getElem?_le8 _ hk, readCell_c1]

/-- The low four bytes of W2 fill the last four; the read mask leaves them alone (R15). -/
theorem getElem?_serializeCells_w2 (hk : k < 4) : (serializeCells s)[16 + k]? = some (regByte s.w2 k) := by
  have hstart : (le8 (s.readCell .c0) ++ le8 (s.readCell .c1)).length = 16 := by
    rw [List.length_append, length_le8, length_le8]
  rw [serializeCells, List.getElem?_append_right (by omega), hstart, Nat.add_sub_cancel_left,
    List.getElem?_take_of_lt hk, getElem?_le8 _ (by omega), readCell_c2, regByte_and_maskReg32 _ (by omega), if_pos hk]

/-- The part that the length XOR leaves alone. -/
theorem length_take_serializeCells : ((serializeCells s).take Config.LEN_XOR_LO).length = 12 := by
  simp [serializeCells, length_le8]

/-- The length XOR leaves the first twelve bytes alone. -/
theorem getElem?_digest_low (hk : k < 12) : (digest s)[k]? = (serializeCells s)[k]? := by
  have hlow : k < ((serializeCells s).take Config.LEN_XOR_LO).length := by
    rw [length_take_serializeCells]
    exact hk
  rw [digest, xorLength, List.getElem?_append_left hlow]
  exact List.getElem?_take_of_lt hk

/-- Byte k of the length goes onto byte 12 + k of the cells. -/
theorem getElem?_digest_high (hk : k < 8) {b : Byte} (hb : (serializeCells s)[12 + k]? = some b) :
    (digest s)[12 + k]? = some (b ^^^ regByte s.len k) := by
  have hcell : ((serializeCells s).drop Config.LEN_XOR_LO)[k]? = some b := by rw [List.getElem?_drop]; exact hb
  rw [digest, xorLength, List.getElem?_append_right (by rw [length_take_serializeCells]; omega),
    length_take_serializeCells, Nat.add_sub_cancel_left,
    List.getElem?_zipWith_eq_some]
  exact ⟨b, _, hcell, getElem?_le8 _ hk, rfl⟩

end

/-- Settles O29: the serialized cells byte by byte, with LEN's bytes on top of the last eight. -/
theorem digestByteTable : Obligations.DigestByteTable := by
  unfold Obligations.DigestByteTable
  refine fun s => ⟨length_digest s, fun k hk => ?w0, fun k hk => ?w1Low, fun k hk => ?w1High, fun k hk => ?w2⟩
  case w0 => exact (getElem?_digest_low s (by omega)).trans (getElem?_serializeCells_w0 s hk)
  case w1Low => exact (getElem?_digest_low s (by omega)).trans (getElem?_serializeCells_w1 s (by omega))
  case w1High =>
    have hcell := getElem?_serializeCells_w1 s (k := 4 + k) (by omega)
    rw [← Nat.add_assoc] at hcell
    exact getElem?_digest_high s (by omega) hcell
  case w2 =>
    have hcell := getElem?_serializeCells_w2 s hk
    have hindex : 16 + k = 12 + (4 + k) := by omega
    rw [hindex] at hcell ⊢
    exact getElem?_digest_high s (by omega) hcell

/-! ### The digest as an integer (R68) -/

/-- Bit j of byte k of a byte string is bit 8k + j of its integer. -/
theorem getLsbD_littleEndianInt {j : Nat} (hj : j < 8) {b : Byte} :
    ∀ {bs : List Byte} {k : Nat}, k < 20 → bs[k]? = some b →
      (littleEndianInt bs).getLsbD (8 * k + j) = b.getLsbD j
  | [], k, _, hb => by simp at hb
  | c :: bs, 0, _, hb => by
    obtain rfl : c = b := by simpa using hb
    have hlt : j < 160 := by omega
    simp [littleEndianInt, hj, hlt]
  | c :: bs, k + 1, hk, hb => by
    have hrest := getLsbD_littleEndianInt hj (bs := bs) (k := k) (by omega) (by simpa using hb)
    have hindex : 8 * (k + 1) + j - 8 = 8 * k + j := by omega
    rw [littleEndianInt, BitVec.getLsbD_or, BitVec.getLsbD_setWidth, getLsbD_byte_of_ge c (by omega), Bool.and_false,
      Bool.false_or, BitVec.getLsbD_shiftLeft, hindex, hrest, decide_eq_true (by omega), decide_eq_false (by omega),
      Bool.not_false, Bool.true_and, Bool.true_and]

/-- A byte string is the little-endian form of the integer whose bytes it lists. -/
theorem littleEndianInt_eq_of_bytes {bs : List Byte} {r : Ring}
    (h : ∀ k, k < 20 → bs[k]? = some (r.extractLsb' (8 * k) 8)) : littleEndianInt bs = r := by
  refine BitVec.eq_of_getLsbD_eq fun p hp => ?_
  have hj : p % 8 < 8 := Nat.mod_lt _ (by decide)
  have hbit := getLsbD_littleEndianInt hj (k := p / 8) (by omega) (h (p / 8) (by omega))
  rwa [BitVec.getLsbD_extractLsb', decide_eq_true hj, Bool.true_and, Nat.div_add_mod] at hbit

/-- Eight bits of the ring that are byte m of a register. -/
theorem extractLsb'_eq_regByte {r : Ring} {v : Reg} {k m : Nat}
    (h : ∀ j, j < 8 → r.getLsbD (8 * k + j) = v.getLsbD (8 * m + j)) : r.extractLsb' (8 * k) 8 = regByte v m := by
  refine BitVec.eq_of_getLsbD_eq fun j hj => ?_
  rw [regByte, BitVec.getLsbD_extractLsb', BitVec.getLsbD_extractLsb', h j hj]

section
variable (s : State) {k : Nat}

/-- The serialized cells are the ring's bytes (R16, R67). -/
theorem getElem?_serializeCells_eq_ring (hk : k < 20) :
    (serializeCells s)[k]? = some ((ring s).extractLsb' (8 * k) 8) := by
  obtain hw0 | ⟨hw1, hk1⟩ | hw2 : k < 8 ∨ (8 ≤ k ∧ k < 16) ∨ 16 ≤ k := by omega
  · rw [getElem?_serializeCells_w0 s hw0, extractLsb'_eq_regByte fun j hj => ?_]
    rw [getLsbD_ring, if_pos (by omega)]
  · obtain ⟨i, rfl⟩ := Nat.exists_eq_add_of_le hw1
    rw [getElem?_serializeCells_w1 s (by omega), extractLsb'_eq_regByte fun j hj => ?_]
    have hindex : 8 * (8 + i) + j - 64 = 8 * i + j := by omega
    rw [getLsbD_ring, if_neg (by omega), if_pos (by omega), hindex]
  · obtain ⟨i, rfl⟩ := Nat.exists_eq_add_of_le hw2
    rw [getElem?_serializeCells_w2 s (by omega), extractLsb'_eq_regByte fun j hj => ?_]
    have hindex : 8 * (16 + i) + j - 128 = 8 * i + j := by omega
    rw [getLsbD_ring, if_neg (by omega), if_neg (by omega), decide_eq_true (by omega), Bool.true_and, hindex]

/-- The length as R68 lays it on the ring, at bits 96..159. -/
theorem getLsbD_shifted_length {v : Reg} {p : Nat} (hp : p < 160) :
    ((v.setWidth 160 : Ring) <<< 96).getLsbD p = (!decide (p < 96) && v.getLsbD (p - 96)) := by
  have hback : p - 96 < 160 := by omega
  rw [BitVec.getLsbD_shiftLeft, BitVec.getLsbD_setWidth, decide_eq_true hp, decide_eq_true hback, Bool.true_and,
    Bool.true_and]

/-- The digest's bytes are those of the ring with the length on top (R68). -/
theorem getElem?_digest_eq_ring_xor_length (hk : k < 20) :
    (digest s)[k]? = some ((ring s ^^^ ((s.len.setWidth 160 : Ring) <<< 96)).extractLsb' (8 * k) 8) := by
  rw [BitVec.extractLsb'_xor]
  by_cases hlow : k < 12
  · have hzero : ((s.len.setWidth 160 : Ring) <<< 96).extractLsb' (8 * k) 8 = 0#8 := by
      refine BitVec.eq_of_getLsbD_eq fun j hj => ?_
      rw [BitVec.getLsbD_extractLsb', getLsbD_shifted_length (by omega), decide_eq_true (p := _ < 96) (by omega),
        Bool.not_true, Bool.false_and, Bool.and_false, BitVec.getLsbD_zero]
    rw [getElem?_digest_low s hlow, getElem?_serializeCells_eq_ring s hk, hzero, BitVec.xor_zero]
  · obtain ⟨i, rfl⟩ := Nat.exists_eq_add_of_le (Nat.not_lt.1 hlow)
    have hlength : ((s.len.setWidth 160 : Ring) <<< 96).extractLsb' (8 * (12 + i)) 8 = regByte s.len i := by
      refine extractLsb'_eq_regByte fun j hj => ?_
      have hindex : 8 * (12 + i) + j - 96 = 8 * i + j := by omega
      rw [getLsbD_shifted_length (by omega), decide_eq_false (by omega), Bool.not_false, Bool.true_and, hindex]
    rw [getElem?_digest_high s (by omega) (getElem?_serializeCells_eq_ring s hk), hlength]

/-- R68, the closed form. -/
theorem littleEndianInt_digest : littleEndianInt (digest s) = ring s ^^^ ((s.len.setWidth 160 : Ring) <<< 96) :=
  littleEndianInt_eq_of_bytes fun _ hk => getElem?_digest_eq_ring_xor_length s hk

end

/-- Nothing of the length is shifted out of the ring. -/
theorem eq_of_shifted_length_eq {v w : Reg}
    (h : ((v.setWidth 160 : Ring) <<< 96) = ((w.setWidth 160 : Ring) <<< 96)) : v = w := by
  refine BitVec.eq_of_getLsbD_eq fun k hk => ?_
  have hbit := congrArg (fun r => r.getLsbD (96 + k)) h
  simpa only [getLsbD_shifted_length (show 96 + k < 160 by omega), show ¬ 96 + k < 96 by omega, decide_false,
    Bool.not_false, Bool.true_and, Nat.add_sub_cancel_left] using hbit

/-- Settles O30: the digest's bytes are those of the ring XOR the shifted length; for equal rings the XOR cancels. -/
theorem digestIsRingXorLength : Obligations.DigestIsRingXorLength := by
  unfold Obligations.DigestIsRingXorLength
  refine ⟨littleEndianInt_digest, fun s t hring hdigest => ?_⟩
  rw [littleEndianInt_digest, littleEndianInt_digest, hring, BitVec.xor_right_inj] at hdigest
  exact eq_of_shifted_length_eq hdigest

end Sys2Proof.Machine
end

section
/-! Reads of the digest do not end the message (R70). -/

namespace Sys2Proof.Machine

/-- The state with these bytes as the host's record of its reads. -/
def State.withObserved (s : State) (bs : List Byte) : State := { s with observed := bs }

/-- The reads of the digest's addresses in order return the digest (R29). -/
theorem map_readOut_digest_addresses (s : State) :
    (List.range Config.DIGEST_BYTES).map (fun a => readOut s (BitVec.ofNat 6 a)) = digest s := by
  refine List.ext_getElem? fun k => ?_
  by_cases hk : k < 20
  · obtain ⟨-, hdigest, -⟩ := readoutMapFields s
    rw [hdigest k hk, List.getElem?_map, Config.DIGEST_BYTES, List.getElem?_range hk, Option.map_some]
  · have hge : 20 ≤ k := Nat.not_lt.1 hk
    rw [List.getElem?_eq_none (by simpa using hge), List.getElem?_eq_none (by simpa [length_digest] using hge)]

/-- The digest reads are reads of these addresses, so they record the digest (R70). -/
theorem eventsEffect_digestReads {s : State} {rest : List HostEvent} (h : s.pending = digestReads ++ rest) :
    eventsEffect digestReads s = (s.withPending rest).withObserved (s.observed ++ digest s) := by
  have hreads : digestReads = ((List.range Config.DIGEST_BYTES).map (BitVec.ofNat 6)).map .read := by
    rw [digestReads, List.map_map]
    rfl
  rw [hreads] at h ⊢
  rw [eventsEffect_reads _ rest s h, List.map_map, ← map_readOut_digest_addresses s]
  rfl

/-! ### The host's record of its reads plays no part in a command -/

theorem update_withObserved (us : List Byte) (s : State) (bs : List Byte) :
    update us (s.withObserved bs) = (update us s).withObserved bs := by
  have hfold : foldBytes s.rot.toNat us (s.withObserved bs) = (foldBytes s.rot.toNat us s).withObserved bs :=
    foldBytes_comm_of_xorCell (f := (·.withObserved bs)) (fun _ c _ => by cases c <;> rfl) us _ s
  rw [update, show (s.withObserved bs).rot = s.rot from rfl, hfold]
  rfl

theorem commandEffect_withObserved (i : Instr) (s : State) (bs : List Byte) :
    commandEffect i (s.withObserved bs) = (commandEffect i s).withObserved bs := by
  cases i with
  | nop => rfl
  | reset => rfl
  | upd0 => exact update_withObserved _ s bs
  | upd1 b0 => exact update_withObserved _ s bs
  | upd2 b0 b1 => exact update_withObserved _ s bs
  | upd3 b0 b1 b2 => exact update_withObserved _ s bs

theorem eventEffect_command_withObserved (w : Word) (s : State) (bs : List Byte) :
    eventEffect (.command w) (s.withObserved bs) = (eventEffect (.command w) s).withObserved bs := by
  cases h : decode w with
  | ok i =>
    rw [eventEffect_command_of_ok h, eventEffect_command_of_ok h]
    exact commandEffect_withObserved i s bs
  | error x =>
    rw [eventEffect_command_of_error h, eventEffect_command_of_error h]
    rfl

theorem eventsEffect_commands_withObserved (ws : List Word) (bs : List Byte) :
    ∀ s : State, eventsEffect (commands ws) (s.withObserved bs) = (eventsEffect (commands ws) s).withObserved bs := by
  induction ws with
  | nil => exact fun _ => rfl
  | cons w ws ih =>
    intro s
    show eventsEffect (commands ws) (eventEffect (.command w) ((s.withPending (s.pending.drop 1)).withObserved bs)) = _
    rw [eventEffect_command_withObserved, ih]
    rfl

/-- The effect of two lists of events one after the other (R38). -/
theorem eventsEffect_append (as bs : List HostEvent) :
    ∀ s : State, eventsEffect (as ++ bs) s = eventsEffect bs (eventsEffect as s) := by
  induction as with
  | nil => exact fun _ => rfl
  | cons a as ih => exact fun _ => ih _

/-- Commands after the digest reads do what they do without them; the digest is on the host's record besides (R70). -/
theorem runOf_digestReads_commands (s : State) (ws : List Word) :
    runOf (digestReads ++ commands ws) s =
      .next ((eventsEffect (commands ws) (s.withPending (commands ws))).withObserved (s.observed ++ digest s)) := by
  rw [runOf_eq, eventsEffect_append, eventsEffect_digestReads (withPending_pending ..),
    eventsEffect_commands_withObserved]
  rfl

/-- Settles O31: the digest's addresses hold the digest, the reads record it and write no register, and the commands
after them do not see the record. -/
theorem digestReadsReturnTheDigest : Obligations.DigestReadsReturnTheDigest := by
  unfold Obligations.DigestReadsReturnTheDigest
  refine ⟨fun s a ha => getElem?_digest_eq_readOut s ha, fun s => ?reads, fun s ws => ?later⟩
  case reads =>
    rw [runOf_eq, eventsEffect_digestReads (rest := []) (by simp)]
    rfl
  case later =>
    exact ⟨_, _, runOf_digestReads_commands s ws, runOf_eq (commands ws) s, ⟨rfl, rfl, rfl, rfl, rfl⟩, rfl, rfl⟩

end Sys2Proof.Machine
end

section
/-! The closed form of the message along the events, and the empty message's digest (R64, R71, R87). -/

namespace Sys2Proof.Machine

/-- Each event keeps the closed form of the message, as it extends the message (R87). -/
theorem messageState_eventEffect (m : List Byte) (e : HostEvent) (s : State) (h : MessageState m s) :
    MessageState (extendMessage m e) (eventEffect e s) := by
  cases e with
  | command w =>
    cases hw : decode w with
    | ok i =>
      rw [eventEffect_command_of_ok hw]
      by_cases hi : i = .reset
      · subst hi
        simp only [extendMessage, hw]
        exact messageState_of_hashZero (hashZero_clearHash s)
      · have hrot : s.rot.toNat < 160 := by
          obtain ⟨-, -, hrot⟩ := h
          rw [hrot]
          exact Nat.mod_lt _ (by decide)
        rw [commandEffect_eq_update hi hrot]
        simp only [extendMessage, hw]
        exact messageState_update h i.dataBytes
    | error x =>
      rw [eventEffect_command_of_error hw]
      simp only [extendMessage, hw]
      exact h
  | read a => exact h
  | resetInput d => exact messageState_of_hashZero (hashZero_assertReset s)

/-- After the reset input the registers hold the closed form of the later events' message. -/
theorem messageState_after_resetInput (s : State) (es : List HostEvent) :
    MessageState (messageOf es) (eventsEffect es (s.withPending es).assertReset) :=
  eventsEffect_foldl (fun _ _ _ h => h) messageState_eventEffect es [] _
    (messageState_of_hashZero (hashZero_assertReset _))

/-- The digest is told by the ring and the length (R68). -/
theorem digest_eq_of_ring_eq {s t : State} (hring : ring s = ring t) (hlen : s.len = t.len) : digest s = digest t := by
  rw [digest, digest, serializeCells_eq_of_ring_eq hring, hlen]

/-- R71: the closed form of the empty message has the reset state's digest. -/
theorem digest_of_messageState_nil {s : State} (h : MessageState [] s) : digest s = List.replicate 20 0 := by
  obtain ⟨hring, hlen, -⟩ := h
  obtain ⟨hring', hlen', -⟩ := messageState_of_hashZero hashZero_reset
  rw [digest_eq_of_ring_eq (hring.trans hring'.symm) (BitVec.eq_of_toNat_eq (hlen.trans hlen'.symm))]
  exact digest_of_hashZero hashZero_reset

/-- Settles O35: after the reset input the registers hold the closed form of the message, here the empty one. -/
theorem emptyMessageDigestIsZero : Obligations.EmptyMessageDigestIsZero := by
  unfold Obligations.EmptyMessageDigestIsZero
  intro s d es hempty
  have hstate := messageState_after_resetInput s es
  rw [hempty] at hstate
  exact ⟨_, runOf_resetInput s d es, digest_of_messageState_nil hstate⟩

end Sys2Proof.Machine
end

section
/-! Legal commands and reads raise no error (R75). -/

namespace Sys2Proof.Machine

/-- Settles O18: a command's effect leaves the error state and the host's lists, a read's effect only records its byte. -/
theorem legalCommandsNeverRaise : Obligations.LegalCommandsNeverRaise := by
  unfold Obligations.LegalCommandsNeverRaise
  refine ⟨fun i s => ⟨commandEffect i s, exec_eq i s, commandEffect_frame i s⟩, fun a s => ?read⟩
  case read => exact ⟨_, acceptEvent_eq (.read a) s, observe_err s _, observe_ecmd s _⟩

end Sys2Proof.Machine
end

section
/-! The hashing registers do not depend on the error state, on what is pending or on what was observed (R73). -/

namespace Sys2Proof.Machine

/-- The hashing registers of `s` with everything else taken from `r`. -/
def State.withRestOf (s r : State) : State :=
  { s with err := r.err, ecmd := r.ecmd, pending := r.pending, observed := r.observed }

/-- Two states have the same hashing registers exactly when they differ in nothing but the rest. -/
theorem sameHash_iff_withRestOf (s t : State) : SameHash s t ↔ s.withRestOf t = t := by
  obtain ⟨w0, w1, w2, len, rot, err, ecmd, pending, observed⟩ := t
  simp [State.withRestOf]

theorem update_withRestOf (bs : List Byte) (s r : State) :
    update bs (s.withRestOf r) = (update bs s).withRestOf r := by
  have hfold : foldBytes s.rot.toNat bs (s.withRestOf r) = (foldBytes s.rot.toNat bs s).withRestOf r :=
    foldBytes_comm_of_xorCell (f := (·.withRestOf r)) (fun _ c _ => by cases c <;> rfl) bs _ s
  rw [update, show (s.withRestOf r).rot = s.rot from rfl, hfold]
  rfl

section
variable {s t : State} (h : SameHash s t)
include h

theorem sameHash_update (bs : List Byte) : SameHash (update bs s) (update bs t) := by
  have ht : update bs t = (update bs s).withRestOf t := by
    rw [← update_withRestOf, (sameHash_iff_withRestOf s t).1 h]
  rw [ht]
  exact ⟨rfl, rfl, rfl, rfl, rfl⟩

theorem sameHash_commandEffect (i : Instr) : SameHash (commandEffect i s) (commandEffect i t) := by
  cases i with
  | nop => exact h
  | reset => exact sameHash_of_hashZero (hashZero_clearHash s) (hashZero_clearHash t)
  | upd0 => exact sameHash_update h _
  | upd1 b0 => exact sameHash_update h _
  | upd2 b0 b1 => exact sameHash_update h _
  | upd3 b0 b1 b2 => exact sameHash_update h _

theorem sameHash_eventEffect (e : HostEvent) : SameHash (eventEffect e s) (eventEffect e t) := by
  cases e with
  | command w =>
    cases hw : decode w with
    | ok i =>
      rw [eventEffect_command_of_ok hw, eventEffect_command_of_ok hw]
      exact sameHash_commandEffect h i
    | error x =>
      rw [eventEffect_command_of_error hw, eventEffect_command_of_error hw]
      exact h
  | read a => exact h
  | resetInput d => exact sameHash_of_hashZero (hashZero_assertReset s) (hashZero_assertReset t)

end

/-- The same events from the same hashing registers reach the same hashing registers. -/
theorem sameHash_eventsEffect (es : List HostEvent) :
    ∀ {s t : State}, SameHash s t → SameHash (eventsEffect es s) (eventsEffect es t) := by
  induction es with
  | nil => exact fun h => h
  | cons e es ih =>
    intro s t h
    have hrest : SameHash (s.withPending (s.pending.drop 1)) (t.withPending (t.pending.drop 1)) := h
    exact ih (sameHash_eventEffect hrest e)

end Sys2Proof.Machine
end

section
/-! An illegal word is recorded once and changes nothing else (R73). -/

namespace Sys2Proof.Machine

theorem eventEffect_command_of_illegal {w : Word} (h : legal w = false) (s : State) :
    eventEffect (.command w) s = illegalCommand w s := by
  cases hw : decode w with
  | ok i => simp [legal, hw] at h
  | error x => exact eventEffect_command_of_error hw s

/-- An illegal word writes no hashing register. -/
theorem sameHash_illegalCommand (w : Word) (s : State) : SameHash (illegalCommand w s) s := ⟨rfl, rfl, rfl, rfl, rfl⟩

/-- A run that begins with an illegal word records it before the later events. -/
theorem runOf_cons_of_illegal {w : Word} (h : legal w = false) (s : State) (es : List HostEvent) :
    runOf (.command w :: es) s = .next (eventsEffect es (illegalCommand w (s.withPending es))) := by
  rw [runOf_eq, ← eventEffect_command_of_illegal h]
  rfl

/-- Once there is a first illegal word, only the reset input makes room for another (R22). -/
theorem foldl_extendFirstIllegal_some (w : Word) {es : List HostEvent} (hes : ∀ e ∈ es, notReset e = true) :
    es.foldl extendFirstIllegal (some w) = some w := by
  induction es with
  | nil => rfl
  | cons e es ih =>
    obtain ⟨he, hes'⟩ := List.forall_mem_cons.1 hes
    have hkeep : extendFirstIllegal (some w) e = some w := by
      cases e with
      | command v => exact ite_self _
      | read a => rfl
      | resetInput d => exact absurd he Bool.false_ne_true
    rw [List.foldl_cons, hkeep, ih hes']

/-- Settles O37: the step is `illegalCommand`, which leaves the hashing registers, so the later events reach the same
ones; the error state records the latched word, and only the reset input changes the record. -/
theorem illegalCommandIsRecordedOnce : Obligations.IllegalCommandIsRecordedOnce := by
  unfold Obligations.IllegalCommandIsRecordedOnce
  intro s w rest hpending hillegal
  refine ⟨?step, fun es => ?sameHash, fun es hes => ?sticky⟩
  case step =>
    rw [step_of_pending hpending, eventEffect_command_of_illegal hillegal]
    rfl
  case sameHash =>
    exact ⟨_, _, runOf_cons_of_illegal hillegal s es, runOf_eq es s,
      sameHash_eventsEffect es (sameHash_illegalCommand w (s.withPending es))⟩
  case sticky =>
    have hlatched : ErrorRecords (some (if s.err then s.ecmd else w)) (illegalCommand w (s.withPending es)) :=
      ⟨latchError_err _ w, latchError_ecmd _ w⟩
    obtain ⟨herr, hecmd⟩ := foldl_extendFirstIllegal_some _ hes ▸ errorRecords_eventsEffect es _ _ hlatched
    exact ⟨_, runOf_cons_of_illegal hillegal s es, herr, hecmd⟩

end Sys2Proof.Machine
end

section
/-! The engines of a platform share nothing (R79). -/

namespace Sys2Proof.Machine

/-- A platform's step of an engine puts the engine's own next state in its place. -/
theorem platform_step_of_step {n : Nat} {p : Platform n} {i : Fin n} {s : State}
    (h : step (p.engine i) = .next s) : p.step i = .next (p.setEngine i s) := by
  rw [Platform.step, h]

section
variable {n : Nat} (p : Platform n) {i j : Fin n}

@[simp] theorem engine_setEngine_same (i : Fin n) (s : State) : (p.setEngine i s).engine i = s :=
  Vector.getElem_set_self ..

theorem engine_setEngine_ne (h : i ≠ j) (s : State) : (p.setEngine i s).engine j = p.engine j :=
  Vector.getElem_set_ne i.isLt j.isLt (Fin.val_ne_of_ne h)

theorem setEngine_comm (h : i ≠ j) (s t : State) :
    (p.setEngine i s).setEngine j t = (p.setEngine j t).setEngine i s :=
  congrArg Platform.mk (Vector.set_comm s t (Fin.val_ne_of_ne h))

end

/-- Settles O48: an engine's step and a delivery write that engine's place only, and writes of two places commute. -/
theorem enginesAreIndependent : Obligations.EnginesAreIndependent := by
  unfold Obligations.EnginesAreIndependent
  intro n p i j hij
  obtain ⟨s, hs⟩ := step_completes (p.engine i)
  obtain ⟨t, ht⟩ := step_completes (p.engine j)
  refine ⟨⟨p.setEngine i s, platform_step_of_step hs, engine_setEngine_ne p hij s, ?own⟩,
    ⟨p.setEngine i s, (p.setEngine i s).setEngine j t, p.setEngine j t, platform_step_of_step hs, ?ij,
      platform_step_of_step ht, ?ji⟩, fun e => engine_setEngine_ne p hij _⟩
  case own => rw [engine_setEngine_same, hs]
  case ij => exact platform_step_of_step ((engine_setEngine_ne p hij s).symm ▸ ht)
  case ji =>
    rw [setEngine_comm p hij]
    exact platform_step_of_step ((engine_setEngine_ne p hij.symm t).symm ▸ hs)

end Sys2Proof.Machine
end

section
/-! The reset input wins over a command arriving with it (R84, R85). -/

namespace Sys2Proof.Machine

/-- Settles O39: the step of a reset input is `assertReset`, which reads no arriving command; it answers the reset state
with the two lists of the host kept. -/
theorem resetInputWins : Obligations.ResetInputWins := by
  unfold Obligations.ResetInputWins
  intro s d rest hpending
  have hstep : step s = .next (s.withPending rest).assertReset := step_of_pending hpending
  rw [hstep, assertReset_eq]
  rfl

end Sys2Proof.Machine
end

section
/-! Decode and encode are inverse to each other (R48). -/

namespace Sys2Proof

/-- Settles O4: both halves are the decoder's answer on exactly the encoder's word. -/
theorem decodeAndEncodeAgree : Obligations.DecodeAndEncodeAgree := by
  unfold Obligations.DecodeAndEncodeAgree
  exact ⟨decode_encode, fun _ _ h => (eq_encode_of_decode h).symm⟩

end Sys2Proof
end

section
/-! The register invariant along the events (R15, R18, R22). -/

namespace Sys2Proof.Machine

/-- The loop of R60 keeps the high half of W2 at 0, as each fold does (R15). -/
theorem foldBytes_w2_high (bs : List Byte) :
    ∀ (q : Nat) {s : State}, s.w2.extractLsb' 32 32 = 0 → (foldBytes q bs s).w2.extractLsb' 32 32 = 0 := by
  induction bs with
  | nil => exact fun _ _ h => h
  | cons b bs ih => exact fun q _ h => ih _ (foldByte_w2_high q b h)

/-- The chunk update writes W2 in its fold only. -/
theorem update_w2_high (bs : List Byte) {s : State} (h : s.w2.extractLsb' 32 32 = 0) :
    (update bs s).w2.extractLsb' 32 32 = 0 := foldBytes_w2_high bs _ h

/-- An update reduces ROT, masks W2 and leaves the error state. -/
theorem inv_update (bs : List Byte) {s : State} (h : Inv s) : Inv (update bs s) := by
  obtain ⟨hw2, -, hecmd⟩ := h
  obtain ⟨-, -, herr', hecmd', -, -⟩ := update_fields bs s
  refine ⟨update_w2_high bs hw2, update_rot_lt bs s, fun herr => ?_⟩
  rw [hecmd']
  exact hecmd (herr'.symm.trans herr)

/-- Settles O43: every register is 0. -/
theorem registerInvariantAtReset : Obligations.RegisterInvariantAtReset := by
  unfold Obligations.RegisterInvariantAtReset
  decide

/-- RESET zeroes the hashing registers and leaves the error state. -/
theorem inv_clearHash {s : State} (h : Inv s) : Inv s.clearHash := by
  obtain ⟨-, -, hecmd⟩ := h
  obtain ⟨hw2, hrot, -⟩ := registerInvariantAtReset
  rw [clearHash_eq]
  exact ⟨hw2, hrot, hecmd⟩

/-- Every command keeps the invariant. -/
theorem inv_commandEffect (i : Instr) {s : State} (h : Inv s) : Inv (commandEffect i s) := by
  cases i with
  | nop => exact h
  | reset => exact inv_clearHash h
  | upd0 => exact inv_update _ h
  | upd1 b0 => exact inv_update _ h
  | upd2 b0 b1 => exact inv_update _ h
  | upd3 b0 b1 b2 => exact inv_update _ h

/-- With ERR set there is nothing to say of ECMD. -/
theorem inv_illegalCommand (w : Word) {s : State} (h : Inv s) : Inv (illegalCommand w s) := by
  obtain ⟨hw2, hrot, -⟩ := h
  exact ⟨hw2, hrot, fun herr => absurd herr (by rw [illegalCommand, latchError_err]; decide)⟩

/-- The reset input reaches the reset state's registers (R84). -/
theorem inv_assertReset (s : State) : Inv s.assertReset := by
  rw [assertReset_eq]
  exact registerInvariantAtReset

/-- Every event keeps the invariant. -/
theorem inv_eventEffect (e : HostEvent) {s : State} (h : Inv s) : Inv (eventEffect e s) := by
  cases e with
  | command w =>
    cases hw : decode w with
    | ok i =>
      rw [eventEffect_command_of_ok hw]
      exact inv_commandEffect i h
    | error x =>
      rw [eventEffect_command_of_error hw]
      exact inv_illegalCommand w h
  | read a => exact h
  | resetInput d => exact inv_assertReset s

/-- Settles O42: a step is the oldest event's effect, or no change where none is pending. -/
theorem stepKeepsTheRegisterInvariant : Obligations.StepKeepsTheRegisterInvariant := by
  unfold Obligations.StepKeepsTheRegisterInvariant
  intro s t hinv hstep
  cases hpending : s.pending with
  | nil =>
    rw [step_of_empty hpending] at hstep
    cases hstep
    exact hinv
  | cons e rest =>
    have hrest : Inv (s.withPending rest) := hinv
    rw [step_of_pending hpending] at hstep
    cases hstep
    exact inv_eventEffect e hrest

end Sys2Proof.Machine
end

section
/-! The closed form of the message, step by step and over a run (R19, R64, R87). -/

namespace Sys2Proof.Machine

/-- Settles O51: taking the event off the pending list writes no register, and the event's effect extends the message. -/
theorem stepExtendsTheMessageState : Obligations.StepExtendsTheMessageState := by
  unfold Obligations.StepExtendsTheMessageState
  intro m s e rest hstate hpending
  exact ⟨_, step_of_pending hpending, messageState_eventEffect m e (s.withPending rest) hstate⟩

/-- Settles O52: both are zero states. -/
theorem emptyMessageStateAfterReset : Obligations.EmptyMessageStateAfterReset := by
  unfold Obligations.EmptyMessageStateAfterReset
  refine ⟨messageState_of_hashZero hashZero_reset, fun s d => ?_⟩
  exact ⟨_, acceptEvent_eq (.resetInput d) s, messageState_of_hashZero (hashZero_assertReset s)⟩

/-- After the reset input the later events keep the invariant. -/
theorem inv_after_resetInput (s : State) (es : List HostEvent) :
    Inv (eventsEffect es (s.withPending es).assertReset) :=
  eventsEffect_foldl (P := fun _ => Inv) (f := fun _ _ => ()) (fun _ _ _ h => h) (fun _ e _ h => inv_eventEffect e h)
    es () _ (inv_assertReset _)

/-- Settles O46: the closed form and the invariant hold after the reset input and are kept along the events. -/
theorem eventsReachTheirMessageState : Obligations.EventsReachTheirMessageState := by
  unfold Obligations.EventsReachTheirMessageState
  intro s d es
  obtain ⟨hring, hlen, hrot⟩ := messageState_after_resetInput s es
  refine ⟨_, runOf_resetInput s d es, hring, hlen, hrot, fun hshort => ?_, inv_after_resetInput s es⟩
  rw [hrot, hlen, Nat.mod_eq_of_lt hshort]
  rfl

end Sys2Proof.Machine
end

section
/-! Legal and illegal words: the rows of the opcode table and the reserved encodings (R47, R48, R49). -/

namespace Sys2Proof

open Sys2Proof.Claims

/-! ### The rows of the opcode table -/

/-- A word is legal exactly when it is some command's word (R48). -/
theorem legal_iff_exists_encode (w : Word) : legal w = true ↔ ∃ i, w = encode i := by
  simp only [← decode_eq_ok_iff]
  cases h : decode w with
  | ok i => simp [legal, h]
  | error x => simp [legal, h]

/-- Under a mask that frees the low n bits a word matches a row when it is the row's pattern but for these bits. -/
theorem row_matches_iff_toNat {r : Row} {n : Nat} (hmask : r.mask = BitVec.allOnes 32 <<< n) (w : Word) :
    r.matches w = true ↔ w.toNat / 2 ^ n * 2 ^ n = r.pattern.toNat := by
  have hle : w.toNat / 2 ^ n * 2 ^ n < 2 ^ 32 := (Nat.div_mul_le_self _ _).trans_lt w.isLt
  rw [Row.matches, decide_eq_true_iff, hmask, ← BitVec.shiftLeft_ushiftRight, BitVec.toNat_eq, BitVec.toNat_shiftLeft,
    BitVec.toNat_ushiftRight, Nat.shiftRight_eq_div_pow, Nat.shiftLeft_eq, Nat.mod_eq_of_lt hle]

/-- A row whose mask frees no bit is matched by its pattern only. -/
theorem row_matches_iff_eq {r : Row} (hmask : r.mask = BitVec.allOnes 32 <<< 0) (w : Word) :
    r.matches w = true ↔ w = r.pattern := by
  rw [row_matches_iff_toNat hmask, BitVec.toNat_eq, Nat.pow_zero, Nat.div_one, Nat.mul_one]

/-- Every command's word matches the command's row: the row's mask frees the bits of the data bytes (R47). -/
theorem row_matches_encode (i : Instr) {r : Row} (hrow : opcodeRows[i.rowIndex]? = some r) :
    r.matches (encode i) = true := by
  cases i with
  | nop => cases hrow; decide
  | reset => cases hrow; decide
  | upd0 => cases hrow; decide
  | upd1 b0 =>
    cases hrow
    rw [row_matches_iff_toNat (n := 8) rfl, encode, toNat_packU]
    bv_omega
  | upd2 b0 b1 =>
    cases hrow
    rw [row_matches_iff_toNat (n := 16) rfl, encode, toNat_packU]
    bv_omega
  | upd3 b0 b1 b2 =>
    cases hrow
    rw [row_matches_iff_toNat (n := 24) rfl, encode, toNat_packU]
    bv_omega

/-- A word that matches a row is the word of one of the row's commands, whose data bytes stand in the freed bits. -/
theorem exists_encode_of_row_matches {k : Nat} {r : Row} {w : Word} (hrow : opcodeRows[k]? = some r)
    (h : r.matches w = true) : ∃ i : Instr, i.rowIndex = k ∧ w = encode i := by
  match k with
  | 0 => cases hrow; exact ⟨.nop, rfl, (row_matches_iff_eq rfl w).1 h⟩
  | 1 => cases hrow; exact ⟨.reset, rfl, (row_matches_iff_eq rfl w).1 h⟩
  | 2 => cases hrow; exact ⟨.upd0, rfl, (row_matches_iff_eq rfl w).1 h⟩
  | 3 =>
    cases hrow
    rw [row_matches_iff_toNat (n := 8) rfl] at h
    refine ⟨.upd1 (dat0Field w), rfl, (eq_packU_iff_toNat ..).2 ?_⟩
    rw [toNat_dat0Field]
    bv_omega
  | 4 =>
    cases hrow
    rw [row_matches_iff_toNat (n := 16) rfl] at h
    refine ⟨.upd2 (dat0Field w) (dat1Field w), rfl, (eq_packU_iff_toNat ..).2 ?_⟩
    rw [toNat_dat0Field, toNat_dat1Field]
    bv_omega
  | 5 =>
    cases hrow
    rw [row_matches_iff_toNat (n := 24) rfl] at h
    refine ⟨.upd3 (dat0Field w) (dat1Field w) (dat2Field w), rfl, (eq_packU_iff_toNat ..).2 ?_⟩
    rw [toNat_dat0Field, toNat_dat1Field, toNat_dat2Field]
    bv_omega
  | k + 6 => cases hrow

theorem rowIndex_lt (i : Instr) : i.rowIndex < opcodeRows.length := by
  cases i <;> simp [Instr.rowIndex, opcodeRows]

theorem encode_inj {i j : Instr} (h : encode i = encode j) : i = j :=
  Except.ok.inj ((decode_encode i).symm.trans (h ▸ decode_encode j))

/-- Settles O6: a row is matched by the words of its own commands only, and a word is the word of one command at most. -/
theorem legalWordsMatchOneTableRow : Obligations.LegalWordsMatchOneTableRow := by
  unfold Obligations.LegalWordsMatchOneTableRow
  intro w
  refine ⟨fun i hw k r hrow => ?row, ?legal⟩
  case row =>
    obtain rfl := eq_encode_of_decode hw
    constructor
    · intro h
      obtain ⟨j, rfl, hj⟩ := exists_encode_of_row_matches hrow h
      rw [encode_inj hj]
    · rintro rfl
      exact row_matches_encode i hrow
  case legal =>
    rw [legal_iff_exists_encode]
    constructor
    · rintro ⟨i, rfl⟩
      have hrow := List.getElem?_eq_getElem (rowIndex_lt i)
      exact ⟨_, List.mem_of_getElem? hrow, row_matches_encode i hrow⟩
    · rintro ⟨r, hr, h⟩
      obtain ⟨k, hrow⟩ := List.mem_iff_getElem?.1 hr
      obtain ⟨i, -, hw⟩ := exists_encode_of_row_matches hrow h
      exact ⟨i, hw⟩

/-! ### The reserved encodings (R49) -/

/-- A check of the decoder raises exactly where its condition fails. -/
theorem ite_ok_eq_error_iff {p : Prop} [Decidable p] {i : Instr} {e : Illegal} :
    (∃ x, (if p then Except.ok i else .error e) = .error x) ↔ ¬ p := by
  split
  case isTrue h => exact ⟨by rintro ⟨x, ⟨⟩⟩, fun hp => absurd h hp⟩
  case isFalse h => exact ⟨fun _ => h, fun _ => ⟨e, rfl⟩⟩

/-- The data bytes of a word at the indices n and above, one by one. -/
theorem exists_cmdByte_ne_zero_iff (w : Word) (n : Nat) :
    (∃ i, i < 3 ∧ n ≤ i ∧ cmdByte w i ≠ 0) ↔
      (n ≤ 0 ∧ dat0Field w ≠ 0) ∨ (n ≤ 1 ∧ dat1Field w ≠ 0) ∨ (n ≤ 2 ∧ dat2Field w ≠ 0) := by
  constructor
  · rintro ⟨i, hi, h⟩
    interval_cases i
    · exact .inl h
    · exact .inr (.inl h)
    · exact .inr (.inr h)
  · rintro (h | h | h)
    · exact ⟨0, by decide, h⟩
    · exact ⟨1, by decide, h⟩
    · exact ⟨2, by decide, h⟩

/-- Format U with RSV = 0 is illegal exactly when a data byte at an index CNT or above is not 0. -/
theorem decodeUpd_eq_error_iff (w : Word) :
    (∃ x, decodeUpd w = .error x) ↔ ∃ i, i < 3 ∧ (cntField w).toNat ≤ i ∧ cmdByte w i ≠ 0 := by
  rw [exists_cmdByte_ne_zero_iff]
  unfold decodeUpd
  split
  case h_1 hcnt => rw [ite_ok_eq_error_iff, hcnt, not_and_or, not_and_or]; simp
  case h_2 hcnt => rw [ite_ok_eq_error_iff, hcnt, not_and_or]; simp
  case h_3 hcnt => rw [ite_ok_eq_error_iff, hcnt]; simp
  case h_4 hne0 hne1 hne2 =>
    have hne : (cntField w).toNat ≠ 0 ∧ (cntField w).toNat ≠ 1 ∧ (cntField w).toNat ≠ 2 := ⟨hne0, hne1, hne2⟩
    have hcnt : (cntField w).toNat = 3 := by omega
    rw [hcnt]; simp

theorem legal_eq_false_iff (w : Word) : legal w = false ↔ ∃ x, decode w = .error x := by
  cases h : decode w with
  | ok i => simp [legal, h]
  | error x => simp [legal, h]

/-- R49 on the fields of the word. -/
theorem decode_eq_error_iff (w : Word) :
    (∃ x, decode w = .error x) ↔
      ((opField w ≠ 0 ∧ opField w ≠ 1 ∧ opField w ≠ 2) ∨
      ((opField w = 0 ∨ opField w = 1) ∧ lowField w ≠ 0) ∨
      (opField w = 2 ∧ (rsvField w ≠ 0 ∨ ∃ i, i < 3 ∧ (cntField w).toNat ≤ i ∧ cmdByte w i ≠ 0))) := by
  unfold decode
  by_cases h0 : opField w = 0
  · rw [if_pos h0, ite_ok_eq_error_iff, h0]; simp
  · by_cases h1 : opField w = 1
    · rw [if_neg h0, if_pos h1, ite_ok_eq_error_iff, h1]; simp
    · by_cases h2 : opField w = 2
      · rw [if_neg h0, if_neg h1, if_pos h2]
        by_cases hrsv : rsvField w = 0
        · rw [if_pos hrsv, decodeUpd_eq_error_iff, h2]; simp [hrsv]
        · rw [if_neg hrsv]
          exact ⟨fun _ => .inr (.inr ⟨h2, .inl hrsv⟩), fun _ => ⟨_, rfl⟩⟩
      · rw [if_neg h0, if_neg h1, if_neg h2]
        exact ⟨fun _ => .inl ⟨h0, h1, h2⟩, fun _ => ⟨_, rfl⟩⟩

/-- Settles O7: the decoder's checks are conditions on the fields, and the fields are digits of the word's number. -/
theorem illegalWordsAreTheReservedOnes : Obligations.IllegalWordsAreTheReservedOnes := by
  unfold Obligations.IllegalWordsAreTheReservedOnes
  intro w
  rw [legal_eq_false_iff, decode_eq_error_iff]
  simp only [ne_eq, BitVec.toNat_eq, toNat_opField, toNat_lowField, toNat_rsvField, toNat_cntField]
  refine or_congr ?op (or_congr (and_congr ?format .rfl) .rfl)
  case op => bv_omega
  case format => bv_omega

/-- Settles O2: the words are written out, so the decoder computes each answer. -/
theorem wordsOfEveryFamilyDecode : Obligations.WordsOfEveryFamilyDecode := by
  unfold Obligations.WordsOfEveryFamilyDecode
  decide

end Sys2Proof
end

section
/-! The assembler's `upd` lines (R50). -/

namespace Sys2Proof.Machine

theorem updOperandsOk_iff (ops : List Nat) : updOperandsOk ops = true ↔ ops.length ≤ 3 ∧ ∀ v ∈ ops, v < 256 := by
  rw [updOperandsOk, Bool.and_eq_true, decide_eq_true_iff, List.all_eq_true]
  simp only [byteOperandOk, decide_eq_true_iff, Config.UPD_MAX]

/-- The operand check is the only one: a list of at most three operands has its command. -/
theorem updOf_eq_none_iff (ops : List Nat) : updOf ops = none ↔ ¬ updOperandsOk ops = true := by
  by_cases hok : updOperandsOk ops = true
  · obtain ⟨hlength, -⟩ := (updOperandsOk_iff ops).1 hok
    rw [updOf, if_pos hok]
    match ops with
    | [] => simp [hok]
    | [_] => simp [hok]
    | [_, _] => simp [hok]
    | [_, _, _] => simp [hok]
    | _ :: _ :: _ :: _ :: _ => simp only [List.length_cons] at hlength; omega
  · rw [updOf, if_neg hok]
    exact ⟨fun _ => hok, fun _ => rfl⟩

/-- A UPD command is found from its data bytes written as numbers. -/
theorem updOf_dataBytes {i : Instr} (hnop : i ≠ .nop) (hreset : i ≠ .reset) :
    updOf (i.dataBytes.map BitVec.toNat) = some i := by
  have hlength : i.dataBytes.length ≤ 3 := by cases i <;> simp [Instr.dataBytes]
  have hok : updOperandsOk (i.dataBytes.map BitVec.toNat) = true := by
    rw [updOperandsOk_iff, List.length_map]
    exact ⟨hlength, List.forall_mem_map.2 fun b _ => b.isLt⟩
  have hbytes : (i.dataBytes.map BitVec.toNat).map (BitVec.ofNat 8) = i.dataBytes := by
    rw [List.map_map]
    exact List.map_id'' (fun b => (BitVec.ofNat_toNat 8 b).trans (BitVec.setWidth_eq b)) _
  rw [updOf, if_pos hok, hbytes]
  cases i with
  | nop => exact absurd rfl hnop
  | reset => exact absurd rfl hreset
  | upd0 => rfl
  | upd1 b0 => rfl
  | upd2 b0 b1 => rfl
  | upd3 b0 b1 b2 => rfl

/-- The line of a UPD command assembles to the command's word. -/
theorem words_upd_dataBytes {i : Instr} (hnop : i ≠ .nop) (hreset : i ≠ .reset) :
    (AsmLine.upd (i.dataBytes.map BitVec.toNat)).words = some [encode i] := by
  rw [AsmLine.words, updOf_dataBytes hnop hreset, Option.map_some]

/-- Settles O8: a line is an error exactly when the operand check fails, and the others are the lines of the four forms. -/
theorem updLinesAssembleOrAreRejected : Obligations.UpdLinesAssembleOrAreRejected := by
  unfold Obligations.UpdLinesAssembleOrAreRejected
  refine ⟨fun ops => ?rejected, ?upd0, fun b0 => ?upd1, fun b0 b1 => ?upd2, fun b0 b1 b2 => ?upd3⟩
  case rejected =>
    rw [AsmLine.words, Option.map_eq_none_iff, updOf_eq_none_iff, updOperandsOk_iff, not_and_or]
    simp only [not_le, not_forall, not_lt, exists_prop]
  case upd0 => exact words_upd_dataBytes (i := .upd0) nofun nofun
  case upd1 => exact words_upd_dataBytes (i := .upd1 b0) nofun nofun
  case upd2 => exact words_upd_dataBytes (i := .upd2 b0 b1) nofun nofun
  case upd3 => exact words_upd_dataBytes (i := .upd3 b0 b1 b2) nofun nofun

end Sys2Proof.Machine
end

section
/-! The expansion of `upds` (R51). -/

namespace Sys2Proof.Machine

theorem length_expandUpds (bs : List Byte) : (expandUpds bs).length = (bs.length + 2) / 3 := by
  induction bs using expandUpds.induct with
  | case1 b0 b1 b2 rest ih => simp only [expandUpds, List.length_cons, ih]; omega
  | case2 b0 b1 => simp [expandUpds]
  | case3 b0 => simp [expandUpds]
  | case4 => rfl

/-- A string cut after a whole number of triples expands part by part. -/
theorem expandUpds_append {as : List Byte} (h : as.length % 3 = 0) (bs : List Byte) :
    expandUpds (as ++ bs) = expandUpds as ++ expandUpds bs := by
  induction as using expandUpds.induct with
  | case1 b0 b1 b2 rest ih =>
    have hrest : rest.length % 3 = 0 := by
      simp only [List.length_cons] at h
      omega
    simp only [List.cons_append, expandUpds, ih hrest]
  | case2 b0 b1 => simp at h
  | case3 b0 => simp at h
  | case4 => rfl

/-- The expansion from byte n on, n a multiple of 3, follows n / 3 commands. -/
theorem getElem?_expandUpds (bs : List Byte) {k : Nat} (hk : 3 * k ≤ bs.length) :
    (expandUpds bs)[k]? = (expandUpds (bs.drop (3 * k)))[0]? := by
  have htake : (bs.take (3 * k)).length = 3 * k := List.length_take_of_le hk
  have hcommands : (expandUpds (bs.take (3 * k))).length = k := by
    rw [length_expandUpds, htake]
    omega
  conv_lhs => rw [← List.take_append_drop (3 * k) bs]
  rw [expandUpds_append (by rw [htake]; exact Nat.mul_mod_right 3 k), List.getElem?_append_right hcommands.le, hcommands,
    Nat.sub_self]

theorem drop_eq_cons_of_getElem? {bs : List Byte} {n : Nat} {b : Byte} (h : bs[n]? = some b) :
    bs.drop n = b :: bs.drop (n + 1) := by
  obtain ⟨hlt, rfl⟩ := List.getElem?_eq_some_iff.1 h
  exact List.drop_eq_getElem_cons hlt

/-- The k-th command carries the k-th triple. -/
theorem getElem?_expandUpds_of_triple {bs : List Byte} {k : Nat} {b0 b1 b2 : Byte} (h0 : bs[3 * k]? = some b0)
    (h1 : bs[3 * k + 1]? = some b1) (h2 : bs[3 * k + 2]? = some b2) :
    (expandUpds bs)[k]? = some (.upd3 b0 b1 b2) := by
  have hdrop : bs.drop (3 * k) = b0 :: b1 :: b2 :: bs.drop (3 * k + 3) := by
    rw [drop_eq_cons_of_getElem? h0, drop_eq_cons_of_getElem? h1, drop_eq_cons_of_getElem? h2]
  obtain ⟨hlt, -⟩ := List.getElem?_eq_some_iff.1 h0
  rw [getElem?_expandUpds bs hlt.le, hdrop]
  rfl

/-- What is left over after the last triple is the last command. -/
theorem getLast?_expandUpds_append {as rest : List Byte} (has : as.length % 3 = 0) {i : Instr}
    (hrest : expandUpds rest = [i]) : (expandUpds (as ++ rest)).getLast? = some i := by
  rw [expandUpds_append has, hrest, List.getLast?_append, List.getLast?_singleton, Option.some_or]

/-- The commands' data bytes are the string. -/
theorem flatMap_dataBytes_expandUpds (bs : List Byte) : (expandUpds bs).flatMap Instr.dataBytes = bs := by
  induction bs using expandUpds.induct with
  | case1 b0 b1 b2 rest ih => rw [expandUpds, List.flatMap_cons, ih]; rfl
  | case2 b0 b1 => rfl
  | case3 b0 => rfl
  | case4 => rfl

theorem dataOf_map_encode (is : List Instr) : dataOf (is.map encode) = is.flatMap Instr.dataBytes := by
  induction is with
  | nil => rfl
  | cons i is ih => rw [List.map_cons, dataOf_cons_of_ok (decode_encode i), ih, List.flatMap_cons]

theorem dataOf_expandUpds (bs : List Byte) : dataOf ((expandUpds bs).map encode) = bs := by
  rw [dataOf_map_encode, flatMap_dataBytes_expandUpds]

/-- The expansion holds no RESET, so its words belong to one message. -/
theorem ne_reset_of_mem_expandUpds {bs : List Byte} {i : Instr} (h : i ∈ expandUpds bs) : i ≠ .reset := by
  induction bs using expandUpds.induct with
  | case1 b0 b1 b2 rest ih =>
    rw [expandUpds] at h
    obtain rfl | h := List.mem_cons.1 h
    · exact nofun
    · exact ih h
  | case2 b0 b1 => rw [List.mem_singleton.1 h]; exact nofun
  | case3 b0 => rw [List.mem_singleton.1 h]; exact nofun
  | case4 => cases h

theorem messageWord_encode {i : Instr} (hi : i ≠ .reset) : messageWord (encode i) = true := by
  rw [messageWord, decode_encode]
  cases i with
  | reset => exact absurd rfl hi
  | _ => rfl

/-- Settles O9: the string is cut at a multiple of three, and the words' run is told by their data bytes. -/
theorem updsExpansionFoldsItsBytes : Obligations.UpdsExpansionFoldsItsBytes := by
  unfold Obligations.UpdsExpansionFoldsItsBytes
  intro bs
  refine ⟨length_expandUpds bs, fun k b0 b1 b2 => getElem?_expandUpds_of_triple, fun b hmod hlast => ?one,
    fun b0 b1 hmod h0 h1 => ?two, dataOf_expandUpds bs, fun s hrot => ?run⟩
  case one =>
    obtain ⟨as, rfl⟩ := List.getLast?_eq_some_iff.1 hlast
    rw [List.length_append, List.length_singleton] at hmod
    exact getLast?_expandUpds_append (by omega) rfl
  case two =>
    have hlength : 2 ≤ bs.length := by omega
    have hlast : bs.length - 2 + 1 = bs.length - 1 := by omega
    have hend : bs.length - 1 + 1 = bs.length := by omega
    have hdrop : bs.drop (bs.length - 2) = [b0, b1] := by
      rw [drop_eq_cons_of_getElem? h0, hlast, drop_eq_cons_of_getElem? h1, hend, List.drop_length]
    rw [← List.take_append_drop (bs.length - 2) bs, hdrop]
    exact getLast?_expandUpds_append (by rw [List.length_take_of_le (Nat.sub_le _ _)]; omega) rfl
  case run =>
    have hwords : ∀ w ∈ (expandUpds bs).map encode, messageWord w = true :=
      List.forall_mem_map.2 fun i hi => messageWord_encode (ne_reset_of_mem_expandUpds hi)
    rw [runOf_commands hwords hrot, dataOf_expandUpds]

end Sys2Proof.Machine
end

section
/-! The four forms of UPD: the ring, the counters and the frame (R60, R64). -/

namespace Sys2Proof.Machine

open Sys2Proof.Claims

/-- Settles O16: UPD without a data byte is the zero-length update. -/
theorem zeroLengthUpdateChangesNothing : Obligations.ZeroLengthUpdateChangesNothing := by
  unfold Obligations.ZeroLengthUpdateChangesNothing
  intro s hrot
  rw [exec_eq, commandEffect, update_nil hrot]

/-- What the loop of R60 from offset q brings to the ring (R64). -/
def chunkRing (q : Nat) : List Byte → Ring
  | [] => 0
  | b :: bs => ringByte q b ^^^ chunkRing (nextOffset q) bs

theorem ring_foldBytes_eq_xor (bs : List Byte) :
    ∀ {q : Nat} (s : State), q < 160 → ring (foldBytes q bs s) = ring s ^^^ chunkRing q bs := by
  induction bs with
  | nil => exact fun s _ => BitVec.xor_zero.symm
  | cons b bs ih =>
    intro q s hq
    rw [foldBytes, ih _ (nextOffset_lt q), ring_foldByte hq, chunkRing, BitVec.xor_assoc]

/-- An update is a fold of its bytes and nothing more. -/
theorem folded_update (bs : List Byte) {s : State} (hrot : s.rot.toNat < 160) :
    Folded (chunkRing s.rot.toNat bs) bs.length s (update bs s) := by
  obtain ⟨hlen, -, herr, hecmd, hpending, hobserved⟩ := update_fields bs s
  refine ⟨ring_foldBytes_eq_xor bs s hrot, ?_, hlen, herr, hecmd, hpending, hobserved, update_w2_high bs⟩
  rw [update_rot_toNat]
  omega

theorem chunkRing_one (q : Nat) (b0 : Byte) : chunkRing q [b0] = ringByte q b0 := BitVec.xor_zero

theorem chunkRing_two (q : Nat) (b0 b1 : Byte) :
    chunkRing q [b0, b1] = ringByte q b0 ^^^ ringByte ((q + 11) % 160) b1 := by
  rw [chunkRing, chunkRing_one, nextOffset, Config.SHIFT, Config.WIDTH]

theorem chunkRing_three (q : Nat) (b0 b1 b2 : Byte) :
    chunkRing q [b0, b1, b2] = ringByte q b0 ^^^ ringByte ((q + 11) % 160) b1 ^^^ ringByte ((q + 22) % 160) b2 := by
  have hlast : ((q + 11) % 160 + 11) % 160 = (q + 22) % 160 := by omega
  rw [chunkRing, chunkRing_two, nextOffset, Config.SHIFT, Config.WIDTH, hlast, BitVec.xor_assoc]

/-- Settles O17: each form is the update by its data bytes, whose ring is written out for its count. -/
theorem updFoldsItsBytes : Obligations.UpdFoldsItsBytes := by
  unfold Obligations.UpdFoldsItsBytes
  intro s hrot
  refine ⟨⟨_, exec_eq .upd0 s, folded_update [] hrot⟩, fun b0 => ⟨_, exec_eq (.upd1 b0) s, ?upd1⟩,
    fun b0 b1 => ⟨_, exec_eq (.upd2 b0 b1) s, ?upd2⟩, fun b0 b1 b2 => ⟨_, exec_eq (.upd3 b0 b1 b2) s, ?upd3⟩⟩
  case upd1 =>
    have hfolded := folded_update [b0] hrot
    rw [chunkRing_one] at hfolded
    exact hfolded
  case upd2 =>
    have hfolded := folded_update [b0, b1] hrot
    rw [chunkRing_two] at hfolded
    exact hfolded
  case upd3 =>
    have hfolded := folded_update [b0, b1, b2] hrot
    rw [chunkRing_three] at hfolded
    exact hfolded

/-- Settles O24: induction on the parts, each of which leaves ROT below 160 for the next. -/
theorem updateIsChunkInvariant : Obligations.UpdateIsChunkInvariant := by
  unfold Obligations.UpdateIsChunkInvariant
  intro parts
  induction parts with
  | nil => exact fun s hrot => update_nil hrot
  | cons part parts ih =>
    intro s hrot
    rw [List.flatten_cons, update_append _ _ hrot, ih _ (update_rot_lt part s), List.foldl_cons]

end Sys2Proof.Machine
end

section
/-! Digests that differ and digests that do not (C1, 42_finalize.md). -/

namespace Sys2Proof.Machine

/-- Settles O28: both messages are written out, so the model computes both digests. -/
theorem orderOfTheBytesMatters : Obligations.OrderOfTheBytesMatters := by
  unfold Obligations.OrderOfTheBytesMatters
  decide

/-- The digest is told by the ring XOR the length at ring bits 96..159 (R68). -/
theorem digest_eq_of_ring_xor_length_eq {s t : State}
    (h : ring s ^^^ ((s.len.setWidth 160 : Ring) <<< 96) = ring t ^^^ ((t.len.setWidth 160 : Ring) <<< 96)) :
    digest s = digest t := by
  refine List.ext_getElem? fun k => ?_
  by_cases hk : k < 20
  · rw [getElem?_digest_eq_ring_xor_length s hk, getElem?_digest_eq_ring_xor_length t hk, h]
  · have hge : Config.DIGEST_BYTES ≤ k := Nat.not_lt.1 hk
    rw [List.getElem?_eq_none (by rwa [length_digest]), List.getElem?_eq_none (by rwa [length_digest])]

/-- Settles O36: byte 96 folds at ring bit 11 * 96 mod 160 = 96, where the length stands, and there 0x01 is the
difference of the lengths 96 and 97. -/
theorem lengthXorCanCancel : Obligations.LengthXorCanCancel := by
  unfold Obligations.LengthXorCanCancel
  intro bs s hzero hlength
  obtain ⟨hring, -, -⟩ := messageState_update_of_hashZero hzero bs
  obtain ⟨hring', -, -⟩ := messageState_update_of_hashZero hzero (bs ++ [0x01])
  obtain ⟨-, -, -, hlen, -⟩ := hzero
  have hlenBefore : (update bs s).len = 96 := by
    rw [(update_fields bs s).1, hlen, hlength]
    rfl
  have hlenAfter : (update (bs ++ [0x01]) s).len = 97 := by
    rw [(update_fields (bs ++ [0x01]) s).1, hlen, List.length_append, hlength]
    rfl
  have hcancel : ringByte (11 * 96 % 160) 0x01 ^^^ (((97 : Reg).setWidth 160 : Ring) <<< 96) =
      ((96 : Reg).setWidth 160 : Ring) <<< 96 := by decide
  refine ⟨digest_eq_of_ring_xor_length_eq ?_, ?_⟩
  · rw [hring, hring', messageRing_concat, hlength, hlenBefore, hlenAfter, BitVec.xor_assoc, hcancel]
  · rw [hlenBefore, hlenAfter]
    decide

end Sys2Proof.Machine
end

section
/-! Steps and runs: the placed word, the idle step, runs one after the other, a torn read (R38). -/

namespace Sys2Proof.Machine

/-- Settles O11: a word of 32 bits is placed whole, and it decodes to the command. -/
theorem placedWordRunsNext : Obligations.PlacedWordRunsNext := by
  unfold Obligations.PlacedWordRunsNext
  intro s i
  have hword : BitVec.ofNat 32 ((encode i).toNat % 2 ^ 32) = encode i := by
    rw [Nat.mod_eq_of_lt (encode i).isLt, BitVec.ofNat_toNat, BitVec.setWidth_eq]
  constructor
  · have hpending : (s.withFetchWord 32 (encode i).toNat).pending = .command (encode i) :: s.pending := by
      rw [State.withFetchWord, hword, State.pushCommand, withPending_pending]
    rw [step_of_pending hpending, eventEffect_command_of_ok (decode_encode i), exec_eq]
    rfl
  · rw [decodeTableWord, if_pos le_rfl, hword, decode_encode]

/-- Settles O13: the step of a state with nothing pending is the idle step. -/
theorem nothingPendingNothingChanges : Obligations.NothingPendingNothingChanges := by
  unfold Obligations.NothingPendingNothingChanges
  exact fun _ => step_of_empty

theorem commandEffect_withPending (i : Instr) (s : State) (es : List HostEvent) :
    commandEffect i (s.withPending es) = (commandEffect i s).withPending es := by
  cases i with
  | nop => rfl
  | reset => rfl
  | upd0 => exact update_withPending _ s es
  | upd1 b0 => exact update_withPending _ s es
  | upd2 b0 b1 => exact update_withPending _ s es
  | upd3 b0 b1 b2 => exact update_withPending _ s es

/-- An event's effect does not depend on the events after it (R38). -/
theorem eventEffect_withPending (e : HostEvent) (s : State) (es : List HostEvent) :
    eventEffect e (s.withPending es) = (eventEffect e s).withPending es := by
  cases e with
  | command w =>
    cases hw : decode w with
    | ok i => rw [eventEffect_command_of_ok hw, eventEffect_command_of_ok hw, commandEffect_withPending]
    | error x =>
      rw [eventEffect_command_of_error hw, eventEffect_command_of_error hw]
      rfl
  | read a => rfl
  | resetInput d => rfl

/-- Events with others pending behind them do what they do alone, and leave the others pending. -/
theorem eventsEffect_append_pending (es fs : List HostEvent) :
    ∀ s : State, eventsEffect es (s.withPending (es ++ fs)) = (eventsEffect es (s.withPending es)).withPending fs := by
  induction es with
  | nil => exact fun _ => rfl
  | cons e es ih =>
    intro s
    show eventsEffect es (eventEffect e (s.withPending (es ++ fs))) =
      (eventsEffect es (eventEffect e (s.withPending es))).withPending fs
    rw [eventEffect_withPending, ih, eventEffect_withPending]

/-- Settles O12: the first events' effect leaves the second list pending, and their effects compose. -/
theorem runsCompose : Obligations.RunsCompose := by
  unfold Obligations.RunsCompose
  intro es fs s t h
  rw [runOf_eq] at h
  cases h
  rw [runOf_eq, runOf_eq, eventsEffect_append, eventsEffect_append_pending]

/-- Settles O34: the start state and the events are written out, so the model computes the run. -/
theorem tornReadIsPossible : Obligations.TornReadIsPossible := by
  unfold Obligations.TornReadIsPossible
  exact ⟨_, rfl, by decide, by decide, by decide⟩

end Sys2Proof.Machine
end

section
/-! Which events write which registers (R24). -/

namespace Sys2Proof.Machine

/-- NOP and the UPD without a data byte have no effect. -/
theorem commandEffect_eq_self {i : Instr} (hi : i = .nop ∨ i = .upd0) {s : State} (hrot : s.rot.toNat < 160) :
    commandEffect i s = s := by
  obtain rfl | rfl := hi
  · rfl
  · exact update_nil hrot

/-- ECMD takes an illegal word only while ERR is 0 (R22, R73). -/
theorem ecmd_illegalCommand_of_ne {w : Word} {s : State} (h : (illegalCommand w s).ecmd ≠ s.ecmd) :
    s.err = false ∧ (illegalCommand w s).ecmd = w := by
  rw [illegalCommand, latchError_ecmd] at h ⊢
  cases herr : s.err with
  | false => exact ⟨rfl, rfl⟩
  | true => exact absurd (if_pos herr) h

/-- Settles O45: each event's effect is compared with the state field by field. -/
theorem onlyNamedEventsWriteRegisters : Obligations.OnlyNamedEventsWriteRegisters := by
  unfold Obligations.OnlyNamedEventsWriteRegisters
  intro s e rest hrot hpending
  refine ⟨_, step_of_pending hpending, eventEffect_pending e _, ?_⟩
  cases e with
  | command w =>
    cases hw : decode w with
    | ok i =>
      obtain ⟨herr, hecmd, -, hobserved⟩ := commandEffect_frame i (s.withPending rest)
      have hself : i = .nop ∨ i = .upd0 → SameHash s (commandEffect i (s.withPending rest)) := by
        intro hi
        rw [commandEffect_eq_self hi (s := s.withPending rest) hrot]
        exact ⟨rfl, rfl, rfl, rfl, rfl⟩
      rw [eventEffect_command_of_ok hw]
      exact ⟨fun hhash => .inl ⟨w, i, rfl, hw, fun hi => hhash (hself (.inl hi)), fun hi => hhash (hself (.inr hi))⟩,
        fun h => absurd herr h, fun h => absurd hecmd h, fun h => absurd hobserved h⟩
    | error x =>
      have hillegal : legal w = false := by rw [legal, hw]
      rw [eventEffect_command_of_error hw]
      refine ⟨fun h => absurd ⟨rfl, rfl, rfl, rfl, rfl⟩ h, fun _ => .inl ⟨w, rfl, hillegal, rfl⟩,
        fun h => ?ecmd, fun h => absurd rfl h⟩
      case ecmd =>
        obtain ⟨herr, hecmd⟩ := ecmd_illegalCommand_of_ne (s := s.withPending rest) h
        exact .inl ⟨w, rfl, hillegal, herr, hecmd⟩
  | read a =>
    exact ⟨fun h => absurd ⟨rfl, rfl, rfl, rfl, rfl⟩ h, fun h => absurd rfl h, fun h => absurd rfl h,
      fun _ => ⟨a, rfl, rfl⟩⟩
  | resetInput d =>
    exact ⟨fun _ => .inr ⟨d, rfl⟩, fun _ => .inr ⟨d, rfl, rfl⟩, fun _ => .inr ⟨d, rfl, rfl⟩, fun h => absurd rfl h⟩

end Sys2Proof.Machine
end

section
/-! A digest claim: the words, the digest reads and the read of STATUS (R91, R94). -/

namespace Sys2Proof.Machine

/-- Command words leave the host's record of its reads. -/
theorem eventsEffect_commands_observed (ws : List Word) :
    ∀ s : State, (eventsEffect (commands ws) s).observed = s.observed := by
  induction ws with
  | nil => exact fun _ => rfl
  | cons w ws ih =>
    intro s
    show (eventsEffect (commands ws) (eventEffect (.command w) (s.withPending (s.pending.drop 1)))).observed = _
    rw [ih]
    cases hw : decode w with
    | ok i =>
      obtain ⟨-, -, -, hobserved⟩ := commandEffect_frame i (s.withPending (s.pending.drop 1))
      rw [eventEffect_command_of_ok hw, hobserved]
      rfl
    | error x =>
      rw [eventEffect_command_of_error hw]
      rfl

/-- Of command words the first illegal one is recorded, if none was before (R22). -/
theorem foldl_extendFirstIllegal_commands (ws : List Word) :
    ∀ f : Option Word, (commands ws).foldl extendFirstIllegal f = f.or (ws.find? fun w => !legal w) := by
  induction ws with
  | nil => exact fun f => Option.or_none.symm
  | cons w ws ih =>
    intro f
    rw [commands, List.map_cons, List.foldl_cons, ← commands, ih, List.find?_cons, extendFirstIllegal]
    cases legal w with
    | true => rfl
    | false => exact Option.or_assoc

theorem firstIllegal_commands_eq_none_iff (ws : List Word) :
    firstIllegal (commands ws) = none ↔ ∀ w ∈ ws, legal w = true := by
  rw [firstIllegal, foldl_extendFirstIllegal_commands, Option.none_or, List.find?_eq_none]
  simp only [Bool.not_eq_true', Bool.not_eq_false]

/-- STATUS reads 0 exactly while ERR is 0 (R31). -/
theorem statusByte_eq_zero_iff (s : State) : statusByte s = 0 ↔ s.err = false := by
  rw [statusByte]
  cases s.err <;> decide

/-- The reads of a digest claim record the digest and STATUS (R94). -/
theorem runOf_digestReads_statusRead (s : State) :
    runOf (digestReads ++ [statusRead]) s =
      .next { s with pending := [], observed := s.observed ++ digest s ++ [statusByte s] } := by
  have hreads : digestReads ++ [statusRead] =
      ((List.range Config.DIGEST_BYTES).map (BitVec.ofNat 6) ++ [0x14]).map .read := by
    rw [List.map_append, List.map_map]
    rfl
  rw [hreads, readsArePure, List.map_append, List.map_map, List.append_assoc, ← map_readOut_digest_addresses s]
  rfl

/-- Settles O47: the words reach the closed form of their message and the record of their first illegal word, and the
reads that follow show both. -/
theorem trustedDigestIsTheMessages : Obligations.TrustedDigestIsTheMessages := by
  unfold Obligations.TrustedDigestIsTheMessages
  intro s d ws
  obtain ⟨hring, hlen, -⟩ := messageState_after_resetInput s (commands ws)
  obtain ⟨herr, -⟩ :=
    errorRecords_eventsEffect (commands ws) none _ (errorRecords_assertReset (s.withPending (commands ws)))
  have hobserved := eventsEffect_commands_observed ws (s.withPending (commands ws)).assertReset
  have hwords := runOf_resetInput s d (commands ws)
  generalize eventsEffect (commands ws) (s.withPending (commands ws)).assertReset = u at hring hlen herr hobserved hwords
  have hrun := runsCompose _ (digestReads ++ [statusRead]) s u hwords
  rw [runOf_digestReads_statusRead, hobserved, List.cons_append, ← List.append_assoc, ← digestRun] at hrun
  refine ⟨_, digest u, statusByte u, hrun, rfl, length_digest u, ?status, ?digest⟩
  case status =>
    rw [statusByte_eq_zero_iff, herr, Option.isSome_eq_false_iff, Option.isNone_iff_eq_none]
    exact firstIllegal_commands_eq_none_iff ws
  case digest =>
    have hlength : u.len = BitVec.ofNat 64 (messageOf (commands ws)).length :=
      BitVec.eq_of_toNat_eq (hlen.trans (BitVec.toNat_ofNat ..).symm)
    rw [littleEndianInt_digest, hring, hlength]

end Sys2Proof.Machine
end

section
/-! The routing of a platform access (20_memory.md section 5, log entry 9). -/

namespace Sys2Proof.Machine

/-- An engine with these events after its pending ones. -/
def State.appendPending (s : State) (es : List HostEvent) : State := s.withPending (s.pending ++ es)

section
variable {n : Nat} (pls : Vector Placement n) (acc : BusAccess)

/-- What an access does at one engine's place. -/
def Platform.accessAt (p : Platform n) (i : Fin n) : Platform n :=
  match (pls[i]).event acc with
  | some e => p.deliver i e
  | none => p

theorem access_eq_foldl_accessAt (p : Platform n) :
    Platform.access pls acc p = (List.finRange n).foldl (Platform.accessAt pls acc) p := rfl

theorem engine_accessAt_same (p : Platform n) (i : Fin n) :
    (p.accessAt pls acc i).engine i = (p.engine i).appendPending ((pls[i]).event acc).toList := by
  rw [Platform.accessAt]
  cases (pls[i]).event acc with
  | none => rw [State.appendPending, Option.toList_none, List.append_nil, withPending_self]
  | some e => exact engine_setEngine_same p i _

theorem engine_accessAt_ne (p : Platform n) {i j : Fin n} (h : i ≠ j) :
    (p.accessAt pls acc i).engine j = p.engine j := by
  rw [Platform.accessAt]
  cases (pls[i]).event acc with
  | none => rfl
  | some e => exact engine_setEngine_ne p h _

/-- Places other than an engine's leave the engine. -/
theorem engine_foldl_accessAt_of_not_mem {is : List (Fin n)} {j : Fin n} (h : j ∉ is) (p : Platform n) :
    (is.foldl (Platform.accessAt pls acc) p).engine j = p.engine j := by
  induction is generalizing p with
  | nil => rfl
  | cons i is ih =>
    rw [List.mem_cons, not_or] at h
    obtain ⟨hi, his⟩ := h
    rw [List.foldl_cons, ih his, engine_accessAt_ne pls acc p (Ne.symm hi)]

/-- An engine whose place is visited once gets its event once. -/
theorem engine_foldl_accessAt_of_mem {is : List (Fin n)} {j : Fin n} (hnodup : is.Nodup) (h : j ∈ is) (p : Platform n) :
    (is.foldl (Platform.accessAt pls acc) p).engine j =
      (p.engine j).appendPending ((pls[j]).event acc).toList := by
  induction is generalizing p with
  | nil => cases h
  | cons i is ih =>
    obtain ⟨hi, hnodup'⟩ := List.nodup_cons.1 hnodup
    rw [List.foldl_cons]
    obtain rfl | h := List.mem_cons.1 h
    · rw [engine_foldl_accessAt_of_not_mem pls acc hi, engine_accessAt_same]
    · have hne : i ≠ j := fun hij => hi (hij ▸ h)
      rw [ih hnodup' h, engine_accessAt_ne pls acc p hne]

end

/-- Settles O49: an access visits every engine's place once, in the order of their numbers. -/
theorem accessReachesOnlyItsEngine : Obligations.AccessReachesOnlyItsEngine := by
  unfold Obligations.AccessReachesOnlyItsEngine
  intro n pls acc p i
  rw [access_eq_foldl_accessAt]
  exact engine_foldl_accessAt_of_mem pls acc (List.nodup_finRange n) (List.mem_finRange i) p

end Sys2Proof.Machine
end

section
/-! Several hosts on one port (R80). -/

namespace Sys2Proof.Machine

/-! ### The two orders of two hosts -/

theorem interleaving_second : ∀ bs : List HostEvent, Interleaving [[], bs] bs
  | [] => .done (by simp)
  | _ :: bs => .pick (k := 1) rfl (interleaving_second bs)

theorem interleaving_first_then_second (bs : List HostEvent) : ∀ as, Interleaving [as, bs] (as ++ bs)
  | [] => interleaving_second bs
  | _ :: as => .pick (k := 0) rfl (interleaving_first_then_second bs as)

theorem interleaving_first : ∀ as : List HostEvent, Interleaving [as, []] as
  | [] => .done (by simp)
  | _ :: as => .pick (k := 0) rfl (interleaving_first as)

theorem interleaving_second_then_first (as : List HostEvent) : ∀ bs, Interleaving [as, bs] (bs ++ as)
  | [] => interleaving_first as
  | _ :: bs => .pick (k := 1) rfl (interleaving_second_then_first as bs)

/-! ### What a merge of command words keeps -/

/-- A list of words that holds every host's words, each host's in its own order (R80). -/
structure Merges (hosts : List (List Word)) (ws : List Word) : Prop where
  perm : ws.Perm hosts.flatten
  sublist : ∀ h ∈ hosts, h.Sublist ws

theorem merges_nil {hosts : List (List Word)} (h : ∀ q ∈ hosts, q = []) : Merges hosts [] where
  perm := by rw [List.flatten_eq_nil_iff.2 h]
  sublist := fun q hq => by rw [h q hq]

/-- A host's next word in front of a merge of what is left is a merge. -/
theorem merges_cons {as bs : List (List Word)} {w : Word} {q ws : List Word} (h : Merges (as ++ q :: bs) ws) :
    Merges (as ++ (w :: q) :: bs) (w :: ws) where
  perm := by
    have hperm := h.perm
    rw [List.flatten_append, List.flatten_cons] at hperm ⊢
    exact (hperm.cons w).trans List.perm_middle.symm
  sublist := by
    intro v hv
    rw [List.mem_append, List.mem_cons] at hv
    obtain hv | rfl | hv := hv
    · exact (h.sublist v (List.mem_append_left _ hv)).cons w
    · exact (h.sublist q (List.mem_append_right _ List.mem_cons_self)).cons_cons w
    · exact (h.sublist v (List.mem_append_right _ (List.mem_cons_of_mem _ hv))).cons w

/-- A host whose next event is picked has a next word, and its place splits the hosts. -/
theorem exists_host_of_pick {hosts : List (List Word)} {k : Nat} {e : HostEvent} {es : List HostEvent}
    (h : (hosts.map commands)[k]? = some (e :: es)) :
    ∃ as w q bs, hosts = as ++ (w :: q) :: bs ∧ e = .command w ∧
      (hosts.map commands).set k es = (as ++ q :: bs).map commands := by
  rw [List.getElem?_map, Option.map_eq_some_iff] at h
  obtain ⟨host, hhost, hevents⟩ := h
  obtain ⟨w, q, rfl, rfl, rfl⟩ := List.map_eq_cons_iff.1 hevents
  obtain ⟨hlt, hget⟩ := List.getElem?_eq_some_iff.1 hhost
  refine ⟨hosts.take k, w, q, hosts.drop (k + 1), ?_, rfl, ?_⟩
  · rw [← hget, List.getElem_cons_drop, List.take_append_drop]
  · rw [← commands, ← List.map_set, List.set_eq_take_append_cons_drop, if_pos hlt]

/-- An interleaving of hosts' command words is the events of a merge of the words. -/
theorem exists_merge_of_interleaving {hosts : List (List Word)} {es : List HostEvent}
    (h : Interleaving (hosts.map commands) es) : ∃ ws, es = commands ws ∧ Merges hosts ws := by
  generalize hqueues : hosts.map commands = queues at h
  induction h generalizing hosts with
  | done hempty =>
    subst hqueues
    refine ⟨[], rfl, merges_nil fun q hq => ?_⟩
    exact List.map_eq_nil_iff.1 (hempty _ (List.mem_map_of_mem hq))
  | pick hpick _ ih =>
    subst hqueues
    obtain ⟨as, w, q, bs, rfl, rfl, hrest⟩ := exists_host_of_pick hpick
    obtain ⟨ws, rfl, hws⟩ := ih hrest.symm
    exact ⟨w :: ws, rfl, merges_cons hws⟩

/-- Settles O50: both orders are built event by event; an interleaving is the events of a merge, whose run is a run of
command words. -/
theorem interleavingsFoldTheMergedBytes : Obligations.InterleavingsFoldTheMergedBytes := by
  unfold Obligations.InterleavingsFoldTheMergedBytes
  refine ⟨fun as bs => ⟨interleaving_first_then_second bs as, interleaving_second_then_first as bs⟩,
    fun hosts es h => ?_⟩
  obtain ⟨ws, rfl, hperm, hsublist⟩ := exists_merge_of_interleaving h
  exact ⟨ws, rfl, hperm, hsublist, fun s => ⟨_, runOf_eq _ s⟩, fun s hrot hws => runOf_commands hws hrot⟩

end Sys2Proof.Machine
end
